-- ==== Sys2Proof/Word.lean ====
section
/-! DEFINITION. The words of the block: bytes, pixels, and what stands on the command port
(00_scope.md R9 to R11, 43_commands.md R220). -/

namespace Sys2Proof

/-- A byte, numbered 7 down to 0 (R9): `u8` of R10. -/
abbrev Byte := BitVec 8

/-- A cache slot number, `u6` of R10. -/
abbrev SlotIndex := BitVec 6

/-- `Pixel` (R11): four `u8` channels, compared channel by channel. -/
structure Pixel where
  r : Byte
  g : Byte
  b : Byte
  a : Byte
  deriving DecidableEq, Repr

/-- One command as the host puts it on the command port (R220): the 8-bit code, and one line for
each operand a command may have. A command looks only at its own operands. -/
structure Request where
  code   : Byte
  /-- `n` of START_DECODE and START_ENCODE. -/
  count  : BitVec 64
  /-- `IN` of START_DECODE. -/
  stream : List Byte
  /-- `p` of ENCODE_PIXEL, as the 32-bit word of R11. -/
  pixel  : BitVec 32
  /-- `k` of READ_REG. -/
  reg    : Byte
  deriving DecidableEq, Repr

/-- R11: a pixel as one 32-bit word, `r ++ g ++ b ++ a` with `r` in bits 31:24. -/
def Pixel.pack (p : Pixel) : BitVec 32 := p.r ++ p.g ++ p.b ++ p.a

/-- R11: the pixel a 32-bit word holds. -/
def Pixel.unpack (w : BitVec 32) : Pixel :=
  ⟨w.extractLsb' 24 8, w.extractLsb' 16 8, w.extractLsb' 8 8, w.extractLsb' 0 8⟩

end Sys2Proof
end

