-- ==== Sys2Proof/Config.lean ====
section
/-! DEFINITION. The implementation parameters of 00_scope.md R8 and the numeric literals that
91_not_in_source.md N1 asks to keep in one place. There is no free value: the spec leaves no value
of a completed step open (93_implementation_defined.md). The widths P_COUNT_BITS = 64,
P_RUN_BITS = 6 and the slot count 64 stand in the types of State's fields (assumption 11). -/

namespace Sys2Proof.Config

/-- `P_RUN_MAX` (R8): the longest run one RUN opcode holds. -/
def runMax : Nat := 62

/-- `P_HASH_MUL` (R8, R110): the multipliers of r, g, b and a. -/
def hashMulR : Nat := 3
/-- `P_HASH_MUL` for g. -/
def hashMulG : Nat := 5
/-- `P_HASH_MUL` for b. -/
def hashMulB : Nat := 7
/-- `P_HASH_MUL` for a. -/
def hashMulA : Nat := 11

/-- `P_CACHE_SLOTS` (R8): the modulus of the index generator. -/
def cacheSlots : Nat := 64

/-- `P_INIT_PIXEL` (R8): `PX` at pass start. -/
def initPixel : Pixel := ⟨0, 0, 0, 255⟩

/-- `P_INIT_CACHE` (R8): every cache slot at pass start. -/
def initSlot : Pixel := ⟨0, 0, 0, 0⟩

/-- `P_DIFF_BIAS` (R8, R83; the spec's decision D5). -/
def diffBias : Int := 2

/-- The bias of LUMA's green field (R84). -/
def lumaGreenBias : Int := 32

/-- The bias of LUMA's two relative fields (R84). -/
def lumaRelBias : Int := 8

/-- The end marker (R55). -/
def endMarker : List Byte := [0x00, 0x00, 0x00, 0x00, 0x00, 0x00, 0x00, 0x01]

end Sys2Proof.Config
end

