-- ==== Sys2Proof/Syntax.lean ====
section
/-! DEFINITION. The instructions of the block: one constructor per row of spec/opcode_table.json.
The six stream opcodes carry their operands as assembled by 30_encoding.md R88 (biases taken off),
the commands carry the operands of 43_commands.md R220. -/

namespace Sys2Proof

/-- Every row of the opcode table. -/
inductive Instr where
  /-- INDEX i (R82). -/
  | index (i : SlotIndex)
  /-- DIFF dr, dg, db, each in −2..1 (R83). -/
  | diff (dr dg db : Int)
  /-- LUMA dg in −32..31, dr − dg and db − dg in −8..7 (R84). -/
  | luma (dg drDg dbDg : Int)
  /-- RUN len, 1..62 (R85). -/
  | run (len : Nat)
  /-- RGB r, g, b (R86). -/
  | rgb (r g b : Byte)
  /-- RGBA r, g, b, a (R87). -/
  | rgba (r g b a : Byte)
  /-- START_DECODE(n, IN), code 0x01 (R221). -/
  | startDecode (n : BitVec 64) (stream : List Byte)
  /-- START_ENCODE(n), code 0x02 (R222). -/
  | startEncode (n : BitVec 64)
  /-- DECODE_NEXT, code 0x03 (R223). -/
  | decodeNext
  /-- ENCODE_PIXEL(p), code 0x04 (R224). -/
  | encodePixel (p : Pixel)
  /-- ENCODE_FINISH, code 0x05 (R225). -/
  | encodeFinish
  /-- READ_REG(k), code 0x06 (R226). -/
  | readReg (k : Byte)
  /-- A reserved command code, 0x00 or 0x07..0xFF (R227). -/
  | reservedCommand (code : Byte)
  /-- The END pseudo-instruction: the 8 bytes of the end marker (R55, R93). -/
  | endMarker
  deriving DecidableEq, Repr

namespace Instr

/-- The six stream opcodes (R3, R80). -/
def isOpcode : Instr → Bool
  | index _ | diff _ _ _ | luma _ _ _ | run _ | rgb _ _ _ | rgba _ _ _ _ => true
  | startDecode _ _ | startEncode _ | decodeNext | encodePixel _ | encodeFinish
  | readReg _ | reservedCommand _ | endMarker => false

/-- What can stand on the command port: the six commands and the reserved codes (R220). -/
def isCommand : Instr → Bool
  | startDecode _ _ | startEncode _ | decodeNext | encodePixel _ | encodeFinish
  | readReg _ | reservedCommand _ => true
  | index _ | diff _ _ _ | luma _ _ _ | run _ | rgb _ _ _ | rgba _ _ _ _ | endMarker => false

end Instr

end Sys2Proof
end

