-- ==== Sys2Proof/WellFormed.lean ====
section
/-! DEFINITION. When an instruction's operands lie in the ranges of 30_encoding.md R82 to R87 and
43_commands.md R220: "An assembler must reject an operand outside its range. It must not wrap the
operand" (R93). -/

namespace Sys2Proof

/-- Each operand is in the range its encoding has room for. -/
def Instr.wf : Instr → Bool
  | .index _ => true
  | .diff dr dg db =>
      decide (-2 ≤ dr ∧ dr ≤ 1) && decide (-2 ≤ dg ∧ dg ≤ 1) && decide (-2 ≤ db ∧ db ≤ 1)
  | .luma dg drDg dbDg =>
      decide (-32 ≤ dg ∧ dg ≤ 31) && decide (-8 ≤ drDg ∧ drDg ≤ 7) && decide (-8 ≤ dbDg ∧ dbDg ≤ 7)
  | .run len => decide (1 ≤ len ∧ len ≤ 62)
  | .rgb _ _ _ => true
  | .rgba _ _ _ _ => true
  | .startDecode _ _ => true
  | .startEncode _ => true
  | .decodeNext => true
  | .encodePixel _ => true
  | .encodeFinish => true
  | .readReg _ => true
  | .reservedCommand code => decide (code = 0 ∨ 7 ≤ code.toNat)
  | .endMarker => true

end Sys2Proof
end

