-- ==== Sys2Proof/Decode.lean ====
section
/-! DEFINITION. Decoding and encoding (30_encoding.md, 43_commands.md R220). Two code spaces: the
opcode stream, decoded from bytes, and the command port, decoded from a request. -/

namespace Sys2Proof

/-- Why bytes are no opcode. Truncation is the only reason (R90). -/
inductive DecodeError where
  /-- The bytes end before the opcode does. -/
  | truncated
  deriving DecidableEq, Repr

/-- The six answers of `Classify` (R81). -/
inductive OpKind where
  | index | diff | luma | run | rgb | rgba
  deriving DecidableEq, Repr

/-- `Classify(b0)` (R81): the two full-color first bytes are recognised before the 2-bit tag. -/
def classify (b0 : Byte) : OpKind :=
  if b0 = 0xFE then .rgb
  else if b0 = 0xFF then .rgba
  else if b0.extractLsb' 6 2 = 0b00#2 then .index
  else if b0.extractLsb' 6 2 = 0b01#2 then .diff
  else if b0.extractLsb' 6 2 = 0b10#2 then .luma
  else .run

/-- The opcode's total length in bytes (R80, R89). -/
def OpKind.length : OpKind → Nat
  | .index => 1
  | .diff => 1
  | .luma => 2
  | .run => 1
  | .rgb => 4
  | .rgba => 5

/-- How many payload bytes follow the first byte (R89, R132). -/
def payloadLength (b0 : Byte) : Nat := (classify b0).length - 1

/-- INDEX's operand, `b0[5:0]` (R82). -/
def indexFields (b0 : Byte) : Instr := .index (b0.extractLsb' 0 6)

/-- DIFF's operands, `b0[5:4] − 2`, `b0[3:2] − 2`, `b0[1:0] − 2` (R83). -/
def diffFields (b0 : Byte) : Instr :=
  .diff ((b0.extractLsb' 4 2).toNat - Config.diffBias)
    ((b0.extractLsb' 2 2).toNat - Config.diffBias)
    ((b0.extractLsb' 0 2).toNat - Config.diffBias)

/-- LUMA's operands, `b0[5:0] − 32`, `b1[7:4] − 8`, `b1[3:0] − 8` (R84). -/
def lumaFields (b0 b1 : Byte) : Instr :=
  .luma ((b0.extractLsb' 0 6).toNat - Config.lumaGreenBias)
    ((b1.extractLsb' 4 4).toNat - Config.lumaRelBias)
    ((b1.extractLsb' 0 4).toNat - Config.lumaRelBias)

/-- RUN's operand, `b0[5:0] + 1` (R85). -/
def runFields (b0 : Byte) : Instr := .run ((b0.extractLsb' 0 6).toNat + 1)

/-- The opcode at the head of a byte sequence, and its length. Total; bytes that end too early are
rejected by name, and nothing else is (R90). -/
def decodeOpcode : List Byte → Except DecodeError (Instr × Nat)
  | [] => .error .truncated
  | b0 :: payload =>
    match classify b0, payload with
    | .index, _ => .ok (indexFields b0, 1)
    | .diff, _ => .ok (diffFields b0, 1)
    | .run, _ => .ok (runFields b0, 1)
    | .luma, b1 :: _ => .ok (lumaFields b0 b1, 2)
    | .luma, [] => .error .truncated
    | .rgb, r :: g :: b :: _ => .ok (.rgb r g b, 4)
    | .rgb, _ => .error .truncated
    | .rgba, r :: g :: b :: a :: _ => .ok (.rgba r g b a, 5)
    | .rgba, _ => .error .truncated

/-- The command a request stands for (R220); a code outside 0x01..0x06 is reserved (R227). -/
def decodeCommand (c : Request) : Instr :=
  if c.code = 0x01 then .startDecode c.count c.stream
  else if c.code = 0x02 then .startEncode c.count
  else if c.code = 0x03 then .decodeNext
  else if c.code = 0x04 then .encodePixel (Pixel.unpack c.pixel)
  else if c.code = 0x05 then .encodeFinish
  else if c.code = 0x06 then .readReg c.reg
  else .reservedCommand c.code

/-! ## The encoder -/

/-- A field of `n` bits that holds `x + bias` (R83, R84). -/
def biasedField (n : Nat) (bias x : Int) : BitVec n := BitVec.ofInt n (x + bias)

/-- The stream bytes of an opcode, or of the end marker (R82 to R87, R55); a command has none. -/
def encodeStream : Instr → List Byte
  | .index i => [0b00#2 ++ i]
  | .diff dr dg db =>
      [0b01#2 ++ biasedField 2 Config.diffBias dr ++ biasedField 2 Config.diffBias dg
        ++ biasedField 2 Config.diffBias db]
  | .luma dg drDg dbDg =>
      [0b10#2 ++ biasedField 6 Config.lumaGreenBias dg,
       biasedField 4 Config.lumaRelBias drDg ++ biasedField 4 Config.lumaRelBias dbDg]
  | .run len => [0b11#2 ++ BitVec.ofNat 6 (len - 1)]
  | .rgb r g b => [0xFE, r, g, b]
  | .rgba r g b a => [0xFF, r, g, b, a]
  | .endMarker => Config.endMarker
  | .startDecode _ _ | .startEncode _ | .decodeNext | .encodePixel _ | .encodeFinish
  | .readReg _ | .reservedCommand _ => []

/-- A request with this code and every operand line at zero. -/
def Request.bare (code : Byte) : Request := ⟨code, 0, [], 0, 0⟩

/-- The request that stands for a command (R220); a stream opcode and END have none. -/
def encodeCommand : Instr → Option Request
  | .startDecode n stream => some { Request.bare 0x01 with count := n, stream := stream }
  | .startEncode n => some { Request.bare 0x02 with count := n }
  | .decodeNext => some (Request.bare 0x03)
  | .encodePixel p => some { Request.bare 0x04 with pixel := p.pack }
  | .encodeFinish => some (Request.bare 0x05)
  | .readReg k => some { Request.bare 0x06 with reg := k }
  | .reservedCommand code => some (Request.bare code)
  | .index _ | .diff _ _ _ | .luma _ _ _ | .run _ | .rgb _ _ _ | .rgba _ _ _ _ | .endMarker => none

/-- The words of an instruction, in the code space it belongs to. -/
inductive Encoded where
  | stream (bytes : List Byte)
  | command (request : Request)
  deriving DecidableEq, Repr

/-- The words of an instruction. -/
def encode (i : Instr) : Encoded :=
  match encodeCommand i with
  | some c => .command c
  | none => .stream (encodeStream i)

/-- The assembler of R93: the stream bytes, and none where an operand is out of its range. -/
def assemble (i : Instr) : Option (List Byte) := if i.wf then some (encodeStream i) else none

/-- The instruction some words stand for: one opcode at the head of a stream, or a command. -/
def decode : Encoded → Except DecodeError Instr
  | .stream bytes => (decodeOpcode bytes).map Prod.fst
  | .command c => .ok (decodeCommand c)

/-- The number of stream bytes of an opcode (R80, R89). -/
def Instr.byteLength : Instr → Nat
  | .index _ => 1
  | .diff _ _ _ => 1
  | .luma _ _ _ => 2
  | .run _ => 1
  | .rgb _ _ _ => 4
  | .rgba _ _ _ _ => 5
  | .endMarker => 8
  | .startDecode _ _ | .startEncode _ | .decodeNext | .encodePixel _ | .encodeFinish
  | .readReg _ | .reservedCommand _ => 0

/-! ## The words of spec/opcode_table.json -/

/-- The first `k` bytes of a number, the least significant one first: the opcode table's numbering. -/
def tableBytes : Nat → Nat → List Byte
  | 0, _ => []
  | k + 1, w => BitVec.ofNat 8 w :: tableBytes k (w / 256)

/-- The longest opcode has 5 bytes (R89). -/
def longestOpcode : Nat := 5

/-- Does a table word name a host command? The INDEX row and the command rows share the numbers
0x01..0x06, being codes of two different ports: an 8-bit word in that range is read as the command
(DESIGN CHOICE, assumption 3). -/
def isCommandWord (nbits w : Nat) : Bool := nbits == 8 && decide (1 ≤ w ∧ w ≤ 6)

/-- Is a table word the END row's? 64 bits: the marker's bytes in stream order (R55), or the number the
row itself writes for them, which puts the first byte highest (DESIGN CHOICE, assumption 3). -/
def isEndWord (nbits w : Nat) : Bool :=
  nbits == 64 && (decide (tableBytes 8 w = Config.endMarker) || w == 1)

/-- The instruction the decoder reads from a word of the opcode table, zeros above `nbits`. -/
def decodeTableWord (nbits w : Nat) : Option Instr :=
  if isCommandWord nbits w then some (decodeCommand (Request.bare (BitVec.ofNat 8 w)))
  else if isEndWord nbits w then some .endMarker
  else
    match decodeOpcode (tableBytes longestOpcode (w % 2 ^ nbits)) with
    | .ok (i, _) => some i
    | .error _ => none

end Sys2Proof
end

