-- ==== Sys2Proof/Machine/State.lean ====
section
/-! DEFINITION. The state of one block (10_state.md R20 to R38) as plain data, the reasons a step can
stop, and the state after power-on reset (R36). -/

namespace Sys2Proof.Machine

/-- `PHASE` (R24). -/
inductive Phase where
  /-- No pass has been started since reset. -/
  | idle
  /-- A pass is running. -/
  | active
  /-- The pass ended normally. -/
  | done
  /-- The pass ended by a fault. -/
  | failed
  deriving DecidableEq, Repr

/-- `MODE` (R25). -/
inductive Mode where
  /-- A decode pass. -/
  | dec
  /-- An encode pass. -/
  | enc
  deriving DecidableEq, Repr

/-- `CAUSE` (R26, R250). -/
inductive Cause where
  /-- Code 0. -/
  | none
  /-- Code 1, raised by `ReadByte` at the end of `IN` (R251). -/
  | truncatedInput
  /-- Code 2, reserved: no step sets it (R252). -/
  | malformedOpcode
  /-- Code 3, the host's header codec only (R253). -/
  | invalidHeader
  deriving DecidableEq, Repr

/-- The responses of R228. -/
inductive Response where
  | ok
  | pixel (p : Pixel)
  /-- `END`. -/
  | endOfPass
  | fail (c : Cause)
  | ignored
  | rejected
  | value (w : BitVec 32)
  deriving DecidableEq, Repr

/-- Why the machine could stop with a fault of its own. The block's fault TRUNCATED_INPUT is none of
these: taking it is a next state (R254). -/
inductive Fault where
  /-- Raised by `execOpcode` when it is given a term that is no stream opcode: the named outcome that
  R252 keeps for a decoder with a different dispatch. The decoder of this block never gives such a
  term, so no step raises it. Safe. -/
  | malformedOpcode
  deriving DecidableEq, Repr

/-- Why the machine could refuse an instruction. -/
inductive Refusal where
  /-- Raised by an arm of `exec` whose instruction has no meaning yet; there is none left. Safe. -/
  | notModelled (mnemonic : String)
  deriving DecidableEq, Repr

/-- The whole state of a block, and its command and response ports. -/
structure State where
  /-- `CACHE[0..63]` (R20). -/
  cache     : Vector Pixel 64
  /-- `PX` (R21). -/
  px        : Pixel
  /-- `RUN` (R22). -/
  run       : BitVec 6
  /-- `REMAINING` (R23). -/
  remaining : BitVec 64
  /-- `PHASE` (R24). -/
  phase     : Phase
  /-- `MODE` (R25). -/
  mode      : Mode
  /-- `CAUSE` (R26). -/
  cause     : Cause
  /-- `IN` (R28); `none` is "no stream attached" (R36). -/
  input     : Option (List Byte)
  /-- `IN_POS` (R28). -/
  inPos     : Nat
  /-- `OUT` (R29). -/
  out       : List Byte
  /-- The model's own: the commands the host has issued and the block has not yet executed, next one
  first (the port of R220; DESIGN CHOICE, assumption 2). -/
  commands  : List Request
  /-- The model's own: the responses given since reset, oldest first (the port of R228; DESIGN CHOICE,
  assumption 2). -/
  responses : List Response
  deriving DecidableEq, Repr

/-- Every cache slot at `P_INIT_CACHE` (R36, R37). -/
def initCache : Vector Pixel 64 := Vector.replicate 64 Config.initSlot

/-- Power-on reset (R36, R280). -/
def State.reset : State where
  cache := initCache
  px := Config.initPixel
  run := 0
  remaining := 0
  phase := .idle
  mode := .dec
  cause := .none
  input := none
  inPos := 0
  out := []
  commands := []
  responses := []

end Sys2Proof.Machine
end

