-- ==== Sys2Proof/Machine/Flags.lean ====
section
/-! DEFINITION. The status bits PHASE, MODE and CAUSE as the host reads them (10_state.md R33 to R35),
and when the pixel budget ends a pass (R140, R183). -/

namespace Sys2Proof.Machine

/-- The code of `PHASE` in STATUS bits 2:0 (R34). -/
def Phase.code : Phase → BitVec 3
  | .idle => 0
  | .active => 1
  | .done => 2
  | .failed => 3

/-- The code of `MODE` in STATUS bit 3 (R34). -/
def Mode.code : Mode → BitVec 1
  | .dec => 0
  | .enc => 1

/-- The code of `CAUSE` in STATUS bits 5:4 (R34, R250). -/
def Cause.code : Cause → BitVec 2
  | .none => 0
  | .truncatedInput => 1
  | .malformedOpcode => 2
  | .invalidHeader => 3

/-- Register 0, STATUS (R34). -/
def State.statusWord (s : State) : BitVec 32 :=
  0#20 ++ s.run ++ s.cause.code ++ s.mode.code ++ s.phase.code

/-- The status view by register number; numbers other than 0, 1 and 2 read 0 (R34, R35). -/
def State.statusReg (s : State) (k : Byte) : BitVec 32 :=
  if k = 0 then s.statusWord
  else if k = 1 then s.remaining.extractLsb' 0 32
  else if k = 2 then s.remaining.extractLsb' 32 32
  else 0

/-- `PHASE` at pass start for a budget of `n` pixels (R37). -/
def startPhase (n : BitVec 64) : Phase := if n = 0 then .done else .active

end Sys2Proof.Machine
end

