-- ==== Sys2Proof/Machine/Operands.lean ====
section
/-! DEFINITION. Operand arithmetic: 8-bit wraparound and sign (00_scope.md R10), delta application
(41_decoder.md R136, R137), delta computation (42_encoder.md R173), and the index generator
(40_cache.md R110). -/

namespace Sys2Proof.Machine

/-- `wrap8(x) = x mod 256` (R10). -/
def wrap8 (x : Int) : Byte := BitVec.ofInt 8 x

/-- `sext_8(v)`: `v` below 128, `v − 256` from 128 on (R10). -/
def sext8 (v : Byte) : Int := if v.toNat < 128 then v.toNat else (v.toNat : Int) - 256

/-- A channel with a delta applied modulo 256 (R136, R137). -/
def addDelta (c : Byte) (d : Int) : Byte := wrap8 (c.toNat + d)

/-- The encoder's channel delta, the wrapped difference read as signed (R173). -/
def channelDelta (cur prev : Byte) : Int := sext8 (wrap8 ((cur.toNat : Int) - prev.toNat))

/-- A pixel with three deltas applied and its alpha kept (R136, R137). -/
def addDeltas (p : Pixel) (dr dg db : Int) : Pixel :=
  ⟨addDelta p.r dr, addDelta p.g dg, addDelta p.b db, p.a⟩

/-- The sum of the index generator, an integer in 0..6630 (R110). -/
def hashSum (p : Pixel) : Nat :=
  Config.hashMulR * p.r.toNat + Config.hashMulG * p.g.toNat + Config.hashMulB * p.b.toNat
    + Config.hashMulA * p.a.toNat

/-- `Hash(p)`, the prediction-cache index generator (R110). -/
def slotHash (p : Pixel) : SlotIndex := BitVec.ofNat 6 (hashSum p % Config.cacheSlots)

end Sys2Proof.Machine
end

