-- ==== Sys2Proof/Machine/Ops.lean ====
section
/-! DEFINITION. The named operations over the state: cache slots and the cache update controller
(40_cache.md R113, R114), the byte streams (20_memory.md R57, R59), the command and response ports,
pass start (10_state.md R37), the pixel budget, and fault entry (60_exceptions.md R254). -/

namespace Sys2Proof.Machine.State

/-! ## One element at a time -/

/-- `PX <- p` (R21). -/
def withPx (s : State) (p : Pixel) : State := { s with px := p }

/-- `RUN <- r` (R22). -/
def withRun (s : State) (r : BitVec 6) : State := { s with run := r }

/-- `IN_POS` moved past `k` bytes (R38). -/
def advance (s : State) (k : Nat) : State := { s with inPos := s.inPos + k }

/-- The commands issued and not yet executed. -/
def withCommands (s : State) (cs : List Request) : State := { s with commands := cs }

/-! ## The prediction cache -/

/-- `CACHE[i]` (R114): no side effect, no miss. -/
def readSlot (s : State) (i : SlotIndex) : Pixel := s.cache[i.toNat]'(i.isLt)

/-- `CacheWrite(i, p)` (R113). -/
def writeSlot (s : State) (i : SlotIndex) (p : Pixel) : State :=
  { s with cache := s.cache.set i.toNat p i.isLt }

/-- `CacheUpdate(p)`, the cache update controller (R113): the write address is always `Hash(p)`
(R115). -/
def cacheUpdate (s : State) (p : Pixel) : State := s.writeSlot (slotHash p) p

/-! ## The streams -/

/-- The bytes of `IN`; no stream attached reads as the empty stream (DESIGN CHOICE, assumption 6: no
run reads it). -/
def inBytes (s : State) : List Byte := s.input.getD []

/-- `ReadByte()` (R57); `none` is the fault TRUNCATED_INPUT, which the caller takes. -/
def readByte (s : State) : Option (Byte × State) :=
  match s.inBytes[s.inPos]? with
  | some v => some (v, s.advance 1)
  | none => none

/-- `k` times `ReadByte()`, in stream order (R57). -/
def readBytes : Nat → State → Option (List Byte × State)
  | 0, s => some ([], s)
  | k + 1, s =>
    match s.readByte with
    | none => none
    | some (v, s1) =>
      match readBytes k s1 with
      | none => none
      | some (vs, s2) => some (v :: vs, s2)

/-- Opcode fetch (R132): one first byte, then exactly the payload bytes it needs. -/
def fetchOpcode (s : State) : Option (Instr × State) :=
  match s.readByte with
  | none => none
  | some (b0, s1) =>
    match readBytes (payloadLength b0) s1 with
    | none => none
    | some (payload, s2) =>
      match decodeOpcode (b0 :: payload) with
      | .ok (i, _) => some (i, s2)
      | .error _ => none

/-- `WriteByte` applied to each byte in order (R59): never fails, never blocks. -/
def writeBytes (s : State) (bs : List Byte) : State := { s with out := s.out ++ bs }

/-- Emit an opcode or the end marker (R175 to R180, R184): append its bytes to `OUT`. -/
def emit (s : State) (i : Instr) : State := s.writeBytes (encodeStream i)

/-! ## The ports -/

/-- `respond X` (R12, R228). -/
def respond (s : State) (x : Response) : State := { s with responses := s.responses ++ [x] }

/-- The next command the host has issued, taken off the port (R61: in the order issued). -/
def takeCommand (s : State) : Option (Request × State) :=
  match s.commands with
  | [] => none
  | c :: rest => some (c, s.withCommands rest)

/-! ## Passes -/

/-- What START_DECODE and START_ENCODE both set (R37, R221, R222). -/
def startPass (s : State) (n : BitVec 64) (m : Mode) : State :=
  { s with
    cache := initCache, px := Config.initPixel, run := 0, remaining := n, mode := m, cause := .none }

/-- The start of a decode pass (R37, R221): `IN` attached at its first byte. -/
def startDecodePass (s : State) (n : BitVec 64) (stream : List Byte) : State :=
  { s.startPass n .dec with input := some stream, inPos := 0, phase := startPhase n }

/-- The start of an encode pass (R37, R222), before a budget of 0 finishes it: `OUT` emptied. -/
def startEncodePass (s : State) (n : BitVec 64) : State :=
  { s.startPass n .enc with out := [], phase := .active }

/-- A resolved pixel in the decoder: `PX <- p`, then `CacheUpdate(PX)` (R130, R139). -/
def resolve (s : State) (p : Pixel) : State := (s.withPx p).cacheUpdate p

/-- `REMAINING <- REMAINING − 1` (R130, R183). -/
def countPixel (s : State) : State := { s with remaining := s.remaining - 1 }

/-- The end of every `DecodeStep` (R130, R140): one pixel off the budget, `DONE` when none is left,
and `emit PX`. -/
def emitPixel (s : State) : State :=
  let t := s.countPixel
  { t with phase := if t.remaining = 0 then .done else t.phase }.respond (.pixel t.px)

/-! ## Faults -/

/-- `raise Fault(c)` from the state before the step (R254): only PHASE, CAUSE and IN_POS change, and
the command responds FAIL(c). There is no handler and no return (R255): only pass start and reset
leave FAILED. -/
def faultEntry (s : State) (c : Cause) : State :=
  { s with phase := .failed, cause := c, inPos := s.inBytes.length }.respond (.fail c)

end Sys2Proof.Machine.State
end

