-- ==== Sys2Proof/Machine/Encoder.lean ====
section
/-! DEFINITION. The run-length pixel encoder and the opcode selector (42_encoder.md). The encoder is
total: every operation here answers a state (R185, R257). -/

namespace Sys2Proof.Machine

/-- Emit RUN for the pending count, then `RUN <- 0` (R171, R172, R180, R184). -/
def State.emitRun (s : State) : State := (s.emit (.run s.run.toNat)).withRun 0

/-- `if RUN > 0: EmitRUN(RUN); RUN <- 0` (R172, R184). -/
def State.flushRun (s : State) : State := if s.run ≠ 0 then s.emitRun else s

/-- Do three deltas fit DIFF? (R174) -/
def fitsDiff (dr dg db : Int) : Bool :=
  decide (-2 ≤ dr ∧ dr ≤ 1) && decide (-2 ≤ dg ∧ dg ≤ 1) && decide (-2 ≤ db ∧ db ≤ 1)

/-- Do a green delta and two relative deltas fit LUMA? (R174) -/
def fitsLuma (dg drDg dbDg : Int) : Bool :=
  decide (-32 ≤ dg ∧ dg ≤ 31) && decide (-8 ≤ drDg ∧ drDg ≤ 7) && decide (-8 ≤ dbDg ∧ dbDg ≤ 7)

/-- The selector's choice when the cache missed and alpha is unchanged (R174, R176 to R178). -/
def selectByDelta (px prev : Pixel) : Instr :=
  let dr := channelDelta px.r prev.r
  let dg := channelDelta px.g prev.g
  let db := channelDelta px.b prev.b
  if fitsDiff dr dg db then .diff dr dg db
  else if fitsLuma dg (dr - dg) (db - dg) then .luma dg (dr - dg) (db - dg)
  else .rgb px.r px.g px.b

/-- `Select(px)`, the opcode selector (R174): cache, then alpha, then DIFF, LUMA, RGB; RGBA where alpha
changed. -/
def State.select (s : State) (px : Pixel) : Instr :=
  if s.readSlot (slotHash px) = px then .index (slotHash px)
  else if px.a = s.px.a then selectByDelta px s.px
  else .rgba px.r px.g px.b px.a

/-- Step 1 of `EncodeStep` (R171): a pixel equal to `PX`. -/
def State.continueRun (s : State) : State :=
  let t := s.withRun (s.run + 1)
  if t.run.toNat = Config.runMax then t.emitRun else t

/-- Step 2 of `EncodeStep` (R172, R174, R181): flush, select and emit, then the cache update. -/
def State.encodeNew (s : State) (px : Pixel) : State :=
  let t := s.flushRun
  (t.emit (t.select px)).cacheUpdate px

/-- `Finish()` (R184). -/
def State.finish (s : State) : State :=
  { s.flushRun.emit .endMarker with phase := .done }

/-- Steps 1 and 2 of `EncodeStep` (R170). -/
def State.encodeBody (s : State) (px : Pixel) : State :=
  if px = s.px then s.continueRun else s.encodeNew px

/-- The end of `EncodeStep` (R170, R182, R183): `PX <- px`, and one pixel off the budget. -/
def State.acceptPixel (s : State) (px : Pixel) : State := (s.withPx px).countPixel

/-- `EncodeStep(px)` (R170): the step that uses up the budget finishes the pass (R183). -/
def State.encodeStep (s : State) (px : Pixel) : State :=
  let t := (s.encodeBody px).acceptPixel px
  if t.remaining = 0 then t.finish else t

end Sys2Proof.Machine
end

