-- ==== Sys2Proof/Machine/Opcodes.lean ====
section
/-! DEFINITION. The six stream opcodes and the END pseudo-instruction, each with its two meanings.
In a decode pass (41_decoder.md R133 to R138, "MODE = DEC") an opcode's meaning is what `DecodeStep`
(R130) does once its bytes are read: the opcode's own effect, the cache update for a resolved pixel
(R139), the budget and the emitted pixel. In an encode pass (42_encoder.md R175 to R180, "MODE = ENC")
it is the emitter: the opcode's bytes appended to `OUT`. The check of PHASE stands in the commands that
reach an opcode, DECODE_NEXT and ENCODE_PIXEL (assumption 1). -/

namespace Sys2Proof.Machine

/-- INDEX: OP INDEX (R135), emit INDEX (R175). -/
def execIndex (i : SlotIndex) (s : State) : Host.Outcome State Fault Refusal :=
  match s.mode with
  | .dec => .next (s.resolve (s.readSlot i)).emitPixel
  | .enc => .next (s.emit (.index i))

/-- DIFF: OP DIFF (R136), emit DIFF (R176). -/
def execDiff (dr dg db : Int) (s : State) : Host.Outcome State Fault Refusal :=
  match s.mode with
  | .dec => .next (s.resolve (addDeltas s.px dr dg db)).emitPixel
  | .enc => .next (s.emit (.diff dr dg db))

/-- LUMA: OP LUMA (R137), emit LUMA (R177): red and blue take the green delta plus their own offsets from it (C3). -/
def execLuma (dg drDg dbDg : Int) (s : State) : Host.Outcome State Fault Refusal :=
  match s.mode with
  | .dec => .next (s.resolve (addDeltas s.px (dg + drDg) dg (dg + dbDg))).emitPixel
  | .enc => .next (s.emit (.luma dg drDg dbDg))

/-- RUN: OP RUN (R138), emit RUN (R180): `len − 1` further repeats queued, `PX` and `CACHE` untouched. -/
def execRun (len : Nat) (s : State) : Host.Outcome State Fault Refusal :=
  match s.mode with
  | .dec => .next (s.withRun (BitVec.ofNat 6 (len - 1))).emitPixel
  | .enc => .next (s.emit (.run len))

/-- RGB: OP RGB (R133), emit RGB (R178): alpha is kept unchanged. -/
def execRgb (r g b : Byte) (s : State) : Host.Outcome State Fault Refusal :=
  match s.mode with
  | .dec => .next (s.resolve ⟨r, g, b, s.px.a⟩).emitPixel
  | .enc => .next (s.emit (.rgb r g b))

/-- RGBA: OP RGBA (R134), emit RGBA (R179). -/
def execRgba (r g b a : Byte) (s : State) : Host.Outcome State Fault Refusal :=
  match s.mode with
  | .dec => .next (s.resolve ⟨r, g, b, a⟩).emitPixel
  | .enc => .next (s.emit (.rgba r g b a))

/-- The slots the end marker names when a decoder reads its bytes as opcodes (R92). -/
def markerSlots : List SlotIndex := [0, 0, 0, 0, 0, 0, 0, 1]

/-- INDEX opcodes one after another, for as long as the pass is running (R92, R140). -/
def indexWhileActive : List SlotIndex → State → State
  | [], s => s
  | i :: rest, s =>
    if s.phase = .active then indexWhileActive rest (s.resolve (s.readSlot i)).emitPixel else s

/-- The END pseudo-instruction (R55, R93; assumption 4). In an encode pass: the encoder's write of the
eight marker bytes (R184). In a decode pass: the eight bytes read as seven INDEX 0 and one INDEX 1
(R92). -/
def execEndMarker (s : State) : Host.Outcome State Fault Refusal :=
  match s.mode with
  | .dec => .next (indexWhileActive markerSlots s)
  | .enc => .next (s.emit .endMarker)

/-- The dispatch of R130 over the six opcodes. The other terms are never given to it. -/
def execOpcode (i : Instr) (s : State) : Host.Outcome State Fault Refusal :=
  match i with
  | .index i => execIndex i s
  | .diff dr dg db => execDiff dr dg db s
  | .luma dg drDg dbDg => execLuma dg drDg dbDg s
  | .run len => execRun len s
  | .rgb r g b => execRgb r g b s
  | .rgba r g b a => execRgba r g b a s
  | .startDecode _ _ | .startEncode _ | .decodeNext | .encodePixel _ | .encodeFinish
  | .readReg _ | .reservedCommand _ | .endMarker => .fault .malformedOpcode

/-- `DecodeStep()` (R130): run continuation (R131), or opcode fetch and dispatch (R132), or the fault
TRUNCATED_INPUT taken from the state before the step (R251, R254). -/
def decodeStep (s : State) : Host.Outcome State Fault Refusal :=
  if s.run ≠ 0 then .next (s.withRun (s.run - 1)).emitPixel
  else
    match s.fetchOpcode with
    | some (i, t) => execOpcode i t
    | none => .next (s.faultEntry .truncatedInput)

end Sys2Proof.Machine
end

