-- ==== Sys2Proof/Machine/Commands.lean ====
section
/-! DEFINITION. The host commands (43_commands.md R221 to R227). Each answers exactly one response
(R228); a command that is not valid in the current MODE and PHASE changes nothing else (R227). -/

namespace Sys2Proof.Machine

/-- START_DECODE(n, IN) (R221): accepted in every phase. -/
def execStartDecode (n : BitVec 64) (stream : List Byte) (s : State) :
    Host.Outcome State Fault Refusal :=
  .next ((s.startDecodePass n stream).respond .ok)

/-- START_ENCODE(n) (R222): accepted in every phase; a budget of 0 finishes at once. -/
def execStartEncode (n : BitVec 64) (s : State) : Host.Outcome State Fault Refusal :=
  let t := s.startEncodePass n
  .next ((if n = 0 then t.finish else t).respond .ok)

/-- DECODE_NEXT (R223). -/
def execDecodeNext (s : State) : Host.Outcome State Fault Refusal :=
  match s.mode, s.phase with
  | .dec, .active => decodeStep s
  | .dec, .done => .next (s.respond .endOfPass)
  | .dec, .failed => .next (s.respond .endOfPass)
  | .dec, .idle => .next (s.respond .rejected)
  | .enc, _ => .next (s.respond .rejected)

/-- ENCODE_PIXEL(p) (R224). -/
def execEncodePixel (p : Pixel) (s : State) : Host.Outcome State Fault Refusal :=
  match s.mode, s.phase with
  | .enc, .active => .next ((s.encodeStep p).respond .ok)
  | .enc, .done => .next (s.respond .ignored)
  | .enc, .idle => .next (s.respond .rejected)
  | .enc, .failed => .next (s.respond .rejected)
  | .dec, _ => .next (s.respond .rejected)

/-- ENCODE_FINISH (R225). -/
def execEncodeFinish (s : State) : Host.Outcome State Fault Refusal :=
  match s.mode, s.phase with
  | .enc, .active => .next (s.finish.respond .ok)
  | .enc, .done => .next (s.respond .ok)
  | .enc, .idle => .next (s.respond .rejected)
  | .enc, .failed => .next (s.respond .rejected)
  | .dec, _ => .next (s.respond .rejected)

/-- READ_REG(k) (R226): the status view, accepted in every phase. -/
def execReadReg (k : Byte) (s : State) : Host.Outcome State Fault Refusal :=
  .next (s.respond (.value (s.statusReg k)))

/-- A reserved command code (R227). -/
def execReservedCommand (_code : Byte) (s : State) : Host.Outcome State Fault Refusal :=
  .next (s.respond .rejected)

end Sys2Proof.Machine
end

