-- ==== Sys2Proof/Machine/Dispatch.lean ====
section
/-! DEFINITION. One arm per instruction. -/

namespace Sys2Proof.Machine

def exec (i : Instr) (s : State) : Host.Outcome State Fault Refusal :=
  match i with
  | .index slot => Sys2Proof.Machine.execIndex slot s
  | .diff dr dg db => Sys2Proof.Machine.execDiff dr dg db s
  | .luma dg drDg dbDg => Sys2Proof.Machine.execLuma dg drDg dbDg s
  | .run len => Sys2Proof.Machine.execRun len s
  | .rgb r g b => Sys2Proof.Machine.execRgb r g b s
  | .rgba r g b a => Sys2Proof.Machine.execRgba r g b a s
  | .startDecode n stream => Sys2Proof.Machine.execStartDecode n stream s
  | .startEncode n => Sys2Proof.Machine.execStartEncode n s
  | .decodeNext => Sys2Proof.Machine.execDecodeNext s
  | .encodePixel p => Sys2Proof.Machine.execEncodePixel p s
  | .encodeFinish => Sys2Proof.Machine.execEncodeFinish s
  | .readReg k => Sys2Proof.Machine.execReadReg k s
  | .reservedCommand code => Sys2Proof.Machine.execReservedCommand code s
  | .endMarker => Sys2Proof.Machine.execEndMarker s

end Sys2Proof.Machine
end

