-- ==== Sys2Proof/Machine/Step.lean ====
section
/-! DEFINITION. One step of the block: one host command (00_scope.md R13), and where a word of the
opcode table is placed so that the next step runs it. -/

namespace Sys2Proof.Machine

/-- One step: the next command the host has issued. With none issued the block rests unchanged
(assumption 2). -/
def step (s : State) : Host.Outcome State Fault Refusal :=
  match s.takeCommand with
  | none => .next s
  | some (c, t) => exec (decodeCommand c) t

/-- The bytes of a word laid over `IN` at `IN_POS`. -/
def State.overlayInput (s : State) (bs : List Byte) : State :=
  { s with
    input := some (s.inBytes.take s.inPos ++ bs ++ s.inBytes.drop (s.inPos + bs.length))
    inPos := min s.inPos s.inBytes.length }

/-- The instruction word `w` placed where the next step finds it (assumptions 3 and 5). A command word:
issued as the next command. A stream opcode: laid over `IN` at `IN_POS`, a decode pass running with no
queued repeat and some budget, and DECODE_NEXT issued. The end marker: an encode pass running with no
pending run, and ENCODE_FINISH issued. -/
def State.withFetchWord (s : State) (nbits w : Nat) : State :=
  if isCommandWord nbits w then
    s.withCommands (Request.bare (BitVec.ofNat 8 w) :: s.commands)
  else if isEndWord nbits w then
    { s with
      mode := .enc, phase := .active, run := 0, commands := Request.bare 0x05 :: s.commands }
  else
    { s.overlayInput (tableBytes longestOpcode (w % 2 ^ nbits)) with
      mode := .dec, phase := .active, run := 0
      remaining := if s.remaining = 0 then 1 else s.remaining
      commands := Request.bare 0x03 :: s.commands }

end Sys2Proof.Machine
end

