-- ==== Sys2Proof/Machine/Header.lean ====
section
/-! DEFINITION. The framing that surrounds the block's byte stream (20_memory.md R51 to R53): the
host's header codec. It is outside the block (00_scope.md R7): no step reads or writes a header. It is
given so that a host can be modelled beside the block (70_reset_and_hazards.md R282). -/

namespace Sys2Proof.Machine

/-- The channel tag: 3 = RGB, 4 = RGBA (R51); informational only (R52). -/
inductive ChannelTag where
  | rgb | rgba
  deriving DecidableEq, Repr

/-- The colorspace tag: 0 = gamma/sRGB, 1 = linear (R51); informational only (R52). -/
inductive ColorspaceTag where
  | srgb | linear
  deriving DecidableEq, Repr

/-- A header value (R52). -/
structure Header where
  width      : BitVec 32
  height     : BitVec 32
  channels   : ChannelTag
  colorspace : ColorspaceTag
  deriving DecidableEq, Repr

/-- A valid header has both dimensions above 0 (R51, R52). -/
def Header.valid (h : Header) : Bool := decide (h.width ≠ 0 ∧ h.height ≠ 0)

/-- The magic, ASCII "qoif" (R52). -/
def headerMagic : List Byte := [0x71, 0x6F, 0x69, 0x66]

/-- The byte of a channel tag (R51). -/
def ChannelTag.byte : ChannelTag → Byte
  | .rgb => 3
  | .rgba => 4

/-- The byte of a colorspace tag (R51). -/
def ColorspaceTag.byte : ColorspaceTag → Byte
  | .srgb => 0
  | .linear => 1

/-- The channel tag a byte names, one of the two recognised values (R52). -/
def channelTagOf (b : Byte) : Option ChannelTag :=
  if b = 3 then some .rgb else if b = 4 then some .rgba else none

/-- The colorspace tag a byte names, one of the two recognised values (R52). -/
def colorspaceTagOf (b : Byte) : Option ColorspaceTag :=
  if b = 0 then some .srgb else if b = 1 then some .linear else none

/-- The four bytes of a u32, big-endian (R52, R56). -/
def bytesOfU32 (w : BitVec 32) : List Byte :=
  [w.extractLsb' 24 8, w.extractLsb' 16 8, w.extractLsb' 8 8, w.extractLsb' 0 8]

/-- Header encode: 14 bytes, with no validation (R51, R52). -/
def encodeHeader (h : Header) : List Byte :=
  headerMagic ++ bytesOfU32 h.width ++ bytesOfU32 h.height ++ [h.channels.byte, h.colorspace.byte]

/-- The header of 14 given bytes; every failure is INVALID_HEADER (R52, R253). -/
def checkHeader (magic : List Byte) (width height : BitVec 32) (channels colorspace : Byte) :
    Except Cause Header :=
  if magic = headerMagic ∧ width ≠ 0 ∧ height ≠ 0 then
    match channelTagOf channels, colorspaceTagOf colorspace with
    | some c, some k => .ok ⟨width, height, c, k⟩
    | _, _ => .error .invalidHeader
  else .error .invalidHeader

/-- Header decode (R52): the header and the bytes from offset 14, or INVALID_HEADER, a truncated
header included (R253). -/
def decodeHeader : List Byte → Except Cause (Header × List Byte)
  | m0 :: m1 :: m2 :: m3 :: w0 :: w1 :: w2 :: w3 :: h0 :: h1 :: h2 :: h3 :: ch :: cs :: rest =>
    (checkHeader [m0, m1, m2, m3] (w0 ++ w1 ++ w2 ++ w3) (h0 ++ h1 ++ h2 ++ h3) ch cs).map
      fun h => (h, rest)
  | _ => .error .invalidHeader

/-- `n = width × height`, an exact product (R53). -/
def Header.pixelCount (h : Header) : BitVec 64 := BitVec.ofNat 64 (h.width.toNat * h.height.toNat)

/-- What the host issues for a whole stream (R282): START_DECODE with the pixel count and the bytes
after the header, or nothing where the header is rejected (R253). -/
def openStream (bytes : List Byte) : Except Cause Request :=
  (decodeHeader bytes).map fun (h, rest) =>
    { Request.bare 0x01 with count := h.pixelCount, stream := rest }

end Sys2Proof.Machine
end

