-- ==== Sys2Proof/Machine/Instances.lean ====
section
/-! DEFINITION. Any number of blocks on independent streams (60_exceptions.md R260; P_INSTANCES is
OPEN, R8). Each has its own state and none shares state with another. -/

namespace Sys2Proof.Machine

/-- One step of block `k` among many; the others stand still. A number with no block is no step. -/
def stepInstance (k : Nat) (blocks : List State) : Host.Outcome (List State) Fault Refusal :=
  match blocks[k]? with
  | none => .next blocks
  | some s =>
    match step s with
    | .next t => .next (blocks.set k t)
    | .fault f => .fault f
    | .refused r => .refused r

end Sys2Proof.Machine
end

