-- ==== Sys2Proof/Safety.lean ====
section
/-! DEFINITION. The terms in which claims about the block are made: the invariant of 10_state.md R31,
the states a pass is in, runs of many commands, and the frames of one pixel. -/

namespace Sys2Proof.Machine

/-! ## The invariant -/

/-- What every step preserves (R31), with what R22 to R28 say of each element. -/
structure State.Inv (s : State) : Prop where
  /-- R31 (1): a slot holds (0,0,0,0) or a pixel that hashes to it. -/
  slots : ∀ i, s.readSlot i = Config.initSlot ∨ slotHash (s.readSlot i) = i
  /-- R31 (2), (3): RUN is at most 61 between steps. -/
  runBound : s.run.toNat ≤ 61
  /-- R31 (4): a running pass has budget left. -/
  budget : s.phase = .active → s.remaining ≠ 0
  /-- R26: CAUSE is NONE unless PHASE is FAILED. -/
  causeNone : s.phase ≠ .failed → s.cause = .none
  /-- R227, R250: only a decode pass fails, and only by TRUNCATED_INPUT. -/
  failedCause : s.phase = .failed → s.mode = .dec ∧ s.cause = .truncatedInput
  /-- R28, R57: the read position never passes the end of IN. -/
  position : s.inPos ≤ s.inBytes.length
  /-- R221: a decode pass has its stream attached. -/
  attached : s.mode = .dec → s.phase ≠ .idle → s.input ≠ none
  /-- R24, R36: IDLE is the state after reset, in MODE DEC. -/
  idleMode : s.phase = .idle → s.mode = .dec
  /-- R184: a finished encode pass has no pending run. -/
  finished : s.mode = .enc → s.phase = .done → s.run = 0

/-! ## Passes -/

/-- A decode pass is running; REMAINING > 0 is implied by R31 (4) (R130). -/
def State.Decoding (s : State) : Prop := s.mode = .dec ∧ s.phase = .active ∧ s.remaining ≠ 0

/-- The decoder is in AWAITING_OPCODE (R27). -/
def State.Awaiting (s : State) : Prop := s.Decoding ∧ s.run = 0

/-- An encode pass is running, between steps (R31 (2), (4)). -/
def State.Encoding (s : State) : Prop :=
  s.mode = .enc ∧ s.phase = .active ∧ s.remaining ≠ 0 ∧ s.run.toNat ≤ 61

/-- One pixel is taken off the budget, and PHASE becomes DONE when none is left (R130, R140, R183). -/
def State.CountsPixel (s t : State) : Prop :=
  t.remaining.toNat + 1 = s.remaining.toNat ∧
  t.phase = if s.remaining = 1 then .done else .active

/-- Everything but PX, CACHE, RUN, REMAINING, PHASE, OUT and the responses is unchanged. -/
def State.SameRest (s t : State) : Prop :=
  t.mode = s.mode ∧ t.cause = s.cause ∧ t.input = s.input ∧ t.inPos = s.inPos ∧
  t.commands = s.commands

/-- The decoder resolved one pixel `p` and output it (R130, R139): PX is `p`, the slot `Hash(p)` holds
`p`, every other slot and everything else is unchanged. -/
def State.Resolves (s t : State) (p : Pixel) : Prop :=
  t.px = p ∧ (∀ j, t.readSlot j = if j = slotHash p then p else s.readSlot j) ∧
  s.CountsPixel t ∧ t.responses = s.responses ++ [.pixel p] ∧
  t.run = s.run ∧ t.out = s.out ∧ s.SameRest t

/-- The decoder output PX as a run repetition, leaving `left` repeats queued (R131, R138): no cache
write, PX and everything else unchanged. -/
def State.Repeats (s t : State) (left : Nat) : Prop :=
  t.px = s.px ∧ t.cache = s.cache ∧ t.run.toNat = left ∧
  s.CountsPixel t ∧ t.responses = s.responses ++ [.pixel s.px] ∧
  t.out = s.out ∧ s.SameRest t

/-! ## Bytes the encoder writes -/

/-- The byte `0xC0 | (run − 1)` (R180), for `run` in 1..62. -/
def runByte (run : Nat) : Byte := 0xC0 ||| BitVec.ofNat 8 (run - 1)

/-- What a flush writes for `run` pending repeats (R172, R184). -/
def flushBytes (run : Nat) : List Byte := if 0 < run then [runByte run] else []

/-- What ends an encode pass (R184). -/
def finishBytes (run : Nat) : List Byte := flushBytes run ++ [0, 0, 0, 0, 0, 0, 0, 1]

/-! ## Runs -/

/-- `k` steps, stopping at the first fault or refusal. -/
def stepN : Nat → State → Host.Outcome State Fault Refusal
  | 0, s => .next s
  | k + 1, s =>
    match step s with
    | .next t => stepN k t
    | .fault f => .fault f
    | .refused r => .refused r

/-- The host's commands for a decode pass of `n` pulls (R230). -/
def decodePass (n : Nat) (bytes : List Byte) : List Request :=
  { Request.bare 0x01 with count := BitVec.ofNat 64 n, stream := bytes } ::
    List.replicate n (Request.bare 0x03)

/-- The host's ENCODE_PIXEL command for a pixel (R224). -/
def pixelRequest (p : Pixel) : Request := { Request.bare 0x04 with pixel := p.pack }

/-- The host's commands for an encode pass of budget `n` over the pixels `ps` (R230). -/
def encodePass (n : Nat) (ps : List Pixel) : List Request :=
  { Request.bare 0x02 with count := BitVec.ofNat 64 n } :: ps.map pixelRequest

/-- How many pixels an opcode stands for (R14, R138): its run length, or the one pixel it resolves. What
is no opcode stands for none. -/
def opcodePixels : Instr → Nat
  | .run len => len
  | .index _ | .diff _ _ _ | .luma _ _ _ | .rgb _ _ _ | .rgba _ _ _ _ => 1
  | .startDecode _ _ | .startEncode _ | .decodeNext | .encodePixel _ | .encodeFinish
  | .readReg _ | .reservedCommand _ | .endMarker => 0

/-- The pixels a decoder with these slots reads from the bytes of the end marker (R92): slot 0 seven
times, then slot 1. -/
def markerPixels (s : State) : List Pixel := List.replicate 7 (s.readSlot 0) ++ [s.readSlot 1]

/-- A state the block can be in: after reset, after a step, or after the host issues commands. -/
inductive Reachable : State → Prop where
  | reset : Reachable State.reset
  | issue (s : State) (cs : List Request) :
      Reachable s → Reachable (s.withCommands (s.commands ++ cs))
  | step (s t : State) : Reachable s → Machine.step s = .next t → Reachable t

/-- A run of `k` steps is safe: it ends in a next state, and that state meets the invariant. -/
def SafeRun (k : Nat) (s : State) : Prop := ∃ t, stepN k s = .next t ∧ t.Inv

end Sys2Proof.Machine
end

