-- ==== Sys2Proof/Certificates/Slice0/Obligations.lean ====
section
/-! DEFINITION. The statements for the provers. Each docstring names the rule of spec/ it formalises. -/

open Sys2Proof Sys2Proof.Machine

/-! ## Encoding (30_encoding.md, 43_commands.md R220) -/

/-- R82 to R87, R220, R227: words written out from the spec's layouts decode to what they stand for. -/
def Obligations.SpecWordsDecode : Prop :=
  decodeOpcode [0b00001110] = .ok (.index 14, 1) ∧
  decodeOpcode [0b01011011] = .ok (.diff (-1) 0 1, 1) ∧
  decodeOpcode [0b10100010, 0b10010111] = .ok (.luma 2 1 (-1), 2) ∧
  decodeOpcode [0b11000010] = .ok (.run 3, 1) ∧
  decodeOpcode [0b11111110, 0x10, 0x20, 0x30] = .ok (.rgb 16 32 48, 4) ∧
  decodeOpcode [0b11111111, 0x01, 0x02, 0x03, 0x04] = .ok (.rgba 1 2 3 4, 5) ∧
  decodeCommand { Request.bare 0x01 with count := 16, stream := [0xC0] } = .startDecode 16 [0xC0] ∧
  decodeCommand { Request.bare 0x02 with count := 5 } = .startEncode 5 ∧
  decodeCommand (Request.bare 0x03) = .decodeNext ∧
  decodeCommand { Request.bare 0x04 with pixel := 0x01020304 } = .encodePixel ⟨1, 2, 3, 4⟩ ∧
  decodeCommand (Request.bare 0x05) = .encodeFinish ∧
  decodeCommand { Request.bare 0x06 with reg := 2 } = .readReg 2 ∧
  decodeCommand (Request.bare 0x00) = .reservedCommand 0 ∧
  decodeCommand (Request.bare 0x07) = .reservedCommand 7

/-- R89: opcode and total length by first byte. -/
def Obligations.FirstByteGivesOpcodeAndLength : Prop :=
  ∀ b0 : Byte,
    (b0.toNat ≤ 0x3F → classify b0 = .index ∧ (classify b0).length = 1) ∧
    (0x40 ≤ b0.toNat ∧ b0.toNat ≤ 0x7F → classify b0 = .diff ∧ (classify b0).length = 1) ∧
    (0x80 ≤ b0.toNat ∧ b0.toNat ≤ 0xBF → classify b0 = .luma ∧ (classify b0).length = 2) ∧
    (0xC0 ≤ b0.toNat ∧ b0.toNat ≤ 0xFD → classify b0 = .run ∧ (classify b0).length = 1) ∧
    (b0.toNat = 0xFE → classify b0 = .rgb ∧ (classify b0).length = 4) ∧
    (b0.toNat = 0xFF → classify b0 = .rgba ∧ (classify b0).length = 5)

/-- R82 to R87: every field of every opcode, at every value, with any bytes after the opcode. -/
def Obligations.OpcodeFieldLayouts : Prop :=
  ∀ rest : List Byte,
    (∀ i : BitVec 6, decodeOpcode ((0b00#2 ++ i) :: rest) = .ok (.index i, 1)) ∧
    (∀ x y z : BitVec 2, decodeOpcode ((0b01#2 ++ x ++ y ++ z) :: rest) =
      .ok (.diff ((x.toNat : Int) - 2) ((y.toNat : Int) - 2) ((z.toNat : Int) - 2), 1)) ∧
    (∀ (g : BitVec 6) (x y : BitVec 4), decodeOpcode ((0b10#2 ++ g) :: (x ++ y) :: rest) =
      .ok (.luma ((g.toNat : Int) - 32) ((x.toNat : Int) - 8) ((y.toNat : Int) - 8), 2)) ∧
    (∀ l : BitVec 6, l.toNat ≤ 61 →
      decodeOpcode ((0b11#2 ++ l) :: rest) = .ok (.run (l.toNat + 1), 1)) ∧
    (∀ r g b : Byte, decodeOpcode (0xFE :: r :: g :: b :: rest) = .ok (.rgb r g b, 4)) ∧
    (∀ r g b a : Byte, decodeOpcode (0xFF :: r :: g :: b :: a :: rest) = .ok (.rgba r g b a, 5))

/-- R90: the 256 first bytes split 64 + 64 + 64 + 62 + 1 + 1; with any payload bytes they decode; and
the decoder rejects nothing but bytes that end before or inside an opcode. -/
def Obligations.NoByteSequenceIsMalformed : Prop :=
  ((List.range 256).countP (fun n => classify (BitVec.ofNat 8 n) = .index) = 64 ∧
   (List.range 256).countP (fun n => classify (BitVec.ofNat 8 n) = .diff) = 64 ∧
   (List.range 256).countP (fun n => classify (BitVec.ofNat 8 n) = .luma) = 64 ∧
   (List.range 256).countP (fun n => classify (BitVec.ofNat 8 n) = .run) = 62 ∧
   (List.range 256).countP (fun n => classify (BitVec.ofNat 8 n) = .rgb) = 1 ∧
   (List.range 256).countP (fun n => classify (BitVec.ofNat 8 n) = .rgba) = 1) ∧
  decodeOpcode [] = .error .truncated ∧
  ∀ (b0 : Byte) (payload : List Byte),
    (payloadLength b0 ≤ payload.length →
      ∃ i, i.isOpcode = true ∧ decodeOpcode (b0 :: payload) = .ok (i, (classify b0).length)) ∧
    (payload.length < payloadLength b0 → decodeOpcode (b0 :: payload) = .error .truncated)

/-- R82 to R88, R220: decoding the words of any well-formed instruction gives it back, a stream opcode
with any bytes after it, a command with its operands. -/
def Obligations.DecodeOfEncodeIsIdentity : Prop :=
  ∀ i : Instr, i.wf = true →
    (i.isOpcode = true → ∀ rest : List Byte,
      decodeOpcode (encodeStream i ++ rest) = .ok (i, i.byteLength)) ∧
    (i.isCommand = true → ∃ c, encodeCommand i = some c ∧ decodeCommand c = i)

/-- R80, R88, R90: every word has one meaning. An instruction the decoder reads is a well-formed stream
opcode, and encoding it gives back exactly the bytes read. -/
def Obligations.EncodeOfDecodeIsIdentity : Prop :=
  ∀ (bytes : List Byte) (i : Instr) (k : Nat), decodeOpcode bytes = .ok (i, k) →
    i.wf = true ∧ i.isOpcode = true ∧ k = i.byteLength ∧ k ≤ bytes.length ∧
    encodeStream i = bytes.take k

/-- R93: the bytes of the assembler's table, as numbers, and the rejection of every operand out of
range. -/
def Obligations.AssemblerBytesAndRejection : Prop :=
  (∀ i : Instr, assemble i = none ↔ i.wf = false) ∧
  (∀ i : BitVec 6, ∃ b : Byte, assemble (.index i) = some [b] ∧ b.toNat = i.toNat) ∧
  (∀ dr dg db : Int, (Instr.diff dr dg db).wf = true →
    ∃ b : Byte, assemble (.diff dr dg db) = some [b] ∧
      (b.toNat : Int) = 0x40 + 16 * (dr + 2) + 4 * (dg + 2) + (db + 2)) ∧
  (∀ dg drDg dbDg : Int, (Instr.luma dg drDg dbDg).wf = true →
    ∃ b0 b1 : Byte, assemble (.luma dg drDg dbDg) = some [b0, b1] ∧
      (b0.toNat : Int) = 0x80 + (dg + 32) ∧ (b1.toNat : Int) = 16 * (drDg + 8) + (dbDg + 8)) ∧
  (∀ len : Nat, (Instr.run len).wf = true →
    ∃ b : Byte, assemble (.run len) = some [b] ∧ b.toNat + 1 = 0xC0 + len) ∧
  (∀ r g b : Byte, assemble (.rgb r g b) = some [0xFE, r, g, b]) ∧
  (∀ r g b a : Byte, assemble (.rgba r g b a) = some [0xFF, r, g, b, a]) ∧
  assemble .endMarker = some [0, 0, 0, 0, 0, 0, 0, 1]

/-! ## The prediction cache (40_cache.md) -/

/-- R110: the index generator. -/
def Obligations.HashIsWeightedSumModulo64 : Prop :=
  ∀ p : Pixel,
    (slotHash p).toNat = (3 * p.r.toNat + 5 * p.g.toNat + 7 * p.b.toNat + 11 * p.a.toNat) % 64 ∧
    3 * p.r.toNat + 5 * p.g.toNat + 7 * p.b.toNat + 11 * p.a.toNat ≤ 6630 ∧
    slotHash ⟨0, 0, 0, 0⟩ = 0 ∧ slotHash ⟨0, 0, 0, 255⟩ = 53

/-- R111: each product and each partial sum may be truncated to 6 bits. -/
def Obligations.HashSixBitFormAgrees : Prop :=
  ∀ p : Pixel,
    slotHash p = 3 * p.r.setWidth 6 + 5 * p.g.setWidth 6 + 7 * p.b.setWidth 6 + 11 * p.a.setWidth 6

/-- R113, R114, R115: the update writes slot `Hash(p)` and no other slot, and touches nothing else. -/
def Obligations.CacheUpdateWritesHashSlotOnly : Prop :=
  ∀ (s : State) (p : Pixel) (i : SlotIndex),
    (s.cacheUpdate p).readSlot i = (if i = slotHash p then p else s.readSlot i) ∧
    (s.cacheUpdate p) = { s with cache := (s.cacheUpdate p).cache }

/-! ## The opcodes in a decode pass (41_decoder.md) -/

/-- R135, R139, R140: INDEX. -/
def Obligations.IndexResolvesCacheSlot : Prop :=
  ∀ (s : State) (i : SlotIndex), s.Decoding →
    ∃ t, exec (.index i) s = .next t ∧ s.Resolves t (s.readSlot i)

/-- R136, R139, R140: DIFF; every channel modulo 256, alpha kept. -/
def Obligations.DiffResolvesWrappedSum : Prop :=
  ∀ (s : State) (dr dg db : Int), s.Decoding →
    ∃ t p, exec (.diff dr dg db) s = .next t ∧ s.Resolves t p ∧
      (p.r.toNat : Int) = (s.px.r.toNat + dr) % 256 ∧
      (p.g.toNat : Int) = (s.px.g.toNat + dg) % 256 ∧
      (p.b.toNat : Int) = (s.px.b.toNat + db) % 256 ∧ p.a = s.px.a

/-- R137, R139, R140: LUMA; red and blue take the green delta plus their own offset from it (C3). -/
def Obligations.LumaResolvesWrappedSum : Prop :=
  ∀ (s : State) (dg drDg dbDg : Int), s.Decoding →
    ∃ t p, exec (.luma dg drDg dbDg) s = .next t ∧ s.Resolves t p ∧
      (p.r.toNat : Int) = (s.px.r.toNat + dg + drDg) % 256 ∧
      (p.g.toNat : Int) = (s.px.g.toNat + dg) % 256 ∧
      (p.b.toNat : Int) = (s.px.b.toNat + dg + dbDg) % 256 ∧ p.a = s.px.a

/-- R133, R134, R139, R140: RGB keeps alpha, RGBA sets it. -/
def Obligations.FullColorResolves : Prop :=
  ∀ (s : State) (r g b a : Byte), s.Decoding →
    (∃ t, exec (.rgb r g b) s = .next t ∧ s.Resolves t ⟨r, g, b, s.px.a⟩) ∧
    (∃ t, exec (.rgba r g b a) s = .next t ∧ s.Resolves t ⟨r, g, b, a⟩)

/-- R138, R140: RUN outputs PX and queues `len − 1` repeats; no cache write. -/
def Obligations.RunQueuesRepeats : Prop :=
  ∀ (s : State) (len : Nat), s.Decoding → (Instr.run len).wf = true →
    ∃ t, exec (.run len) s = .next t ∧ s.Repeats t (len - 1)

/-- R142: which opcodes change alpha, and which keep all of PX. -/
def Obligations.OnlyRgbaAndIndexChangeAlpha : Prop :=
  (∀ (s t : State) (r g b : Byte), s.Decoding → exec (.rgb r g b) s = .next t → t.px.a = s.px.a) ∧
  (∀ (s t : State) (dr dg db : Int), s.Decoding → exec (.diff dr dg db) s = .next t →
    t.px.a = s.px.a) ∧
  (∀ (s t : State) (dg x y : Int), s.Decoding → exec (.luma dg x y) s = .next t →
    t.px.a = s.px.a) ∧
  (∀ (s t : State) (len : Nat), s.Decoding → exec (.run len) s = .next t → t.px = s.px) ∧
  (∀ s t : State, s.Decoding → s.run ≠ 0 → exec .decodeNext s = .next t → t.px = s.px) ∧
  (∃ (s t : State), s.Decoding ∧ exec (.rgba 0 0 0 0) s = .next t ∧ t.px.a ≠ s.px.a) ∧
  (∃ (s t : State), s.Decoding ∧ exec (.index 0) s = .next t ∧ t.px.a ≠ s.px.a)

/-! ## The decoder's step (41_decoder.md, 60_exceptions.md) -/

/-- R131: a queued repeat is output with no byte read and no cache write. -/
def Obligations.DecodeNextContinuesRun : Prop :=
  ∀ s : State, s.Decoding → s.run ≠ 0 →
    ∃ t, exec .decodeNext s = .next t ∧ s.Repeats t (s.run.toNat - 1)

/-- R130, R132, R38: in AWAITING_OPCODE, when the bytes at IN_POS decode to an opcode, DECODE_NEXT is
that opcode's meaning at the state with IN_POS moved past exactly its bytes, and answers a next state
with one pixel emitted. -/
def Obligations.DecodeNextRunsFetchedOpcode : Prop :=
  ∀ (s : State) (i : Instr) (k : Nat), s.Awaiting →
    decodeOpcode (s.inBytes.drop s.inPos) = .ok (i, k) →
    exec .decodeNext s = exec i { s with inPos := s.inPos + i.byteLength } ∧
    ∃ t, exec .decodeNext s = .next t ∧ t.inPos = s.inPos + i.byteLength ∧
      s.CountsPixel t ∧ t.responses = s.responses ++ [.pixel t.px]

/-- R254, with R251's points: when IN ends before or inside the opcode, the pull fails; PHASE, CAUSE
and IN_POS and the response are all that changes. -/
def Obligations.TruncationIsPrecise : Prop :=
  ∀ s : State, s.Awaiting → decodeOpcode (s.inBytes.drop s.inPos) = .error .truncated →
    ∃ t, exec .decodeNext s = .next t ∧
      t.phase = .failed ∧ t.cause = .truncatedInput ∧ t.inPos = s.inBytes.length ∧
      t.responses = s.responses ++ [.fail .truncatedInput] ∧
      t.px = s.px ∧ t.cache = s.cache ∧ t.run = s.run ∧ t.remaining = s.remaining ∧
      t.mode = s.mode ∧ t.input = s.input ∧ t.out = s.out ∧ t.commands = s.commands

/-- R251: a pull faults exactly when no repeat is queued and fewer bytes are left than the opcode at
IN_POS needs. -/
def Obligations.TruncationPoints : Prop :=
  ∀ (s t : State), s.Decoding → exec .decodeNext s = .next t →
    (t.phase = .failed ↔ s.run = 0 ∧
      ∀ b0 rest, s.inBytes.drop s.inPos = b0 :: rest → rest.length < payloadLength b0)

/-- R255: FAILED is sticky. DECODE_NEXT responds END and reads nothing; no command but START_DECODE and
START_ENCODE changes PHASE or CAUSE; those two begin a new pass; power-on reset clears both. -/
def Obligations.FailedIsSticky : Prop :=
  (State.reset.phase ≠ .failed ∧ State.reset.cause = .none) ∧
  ∀ s : State, s.phase = .failed → s.mode = .dec →
    exec .decodeNext s = .next { s with responses := s.responses ++ [.endOfPass] } ∧
    (∀ (p : Pixel) (k code : Byte) (i : Instr),
      i ∈ [.decodeNext, .encodePixel p, .encodeFinish, .readReg k, .reservedCommand code] →
      ∃ t, exec i s = .next t ∧ t.phase = .failed ∧ t.cause = s.cause) ∧
    (∀ n bytes, ∃ t, exec (.startDecode n bytes) s = .next t ∧ t.phase ≠ .failed ∧ t.cause = .none) ∧
    (∀ n, ∃ t, exec (.startEncode n) s = .next t ∧ t.phase ≠ .failed ∧ t.cause = .none)

/-- R286: the decoder reads nothing ahead. Two streams that agree on the bytes a pull reads give the same
pull, whatever comes after. -/
def Obligations.DecoderReadsNothingAhead : Prop :=
  ∀ (s t : State) (a b c : List Byte), s.Decoding → s.inPos ≤ a.length →
    exec .decodeNext { s with input := some (a ++ b) } = .next t →
    t.phase ≠ .failed → t.inPos ≤ a.length →
    exec .decodeNext { s with input := some (a ++ c) } = .next { t with input := some (a ++ c) }

/-- R92: a decoder that runs into the end marker reads it as seven INDEX 0 and one INDEX 1; eight pulls
have the effect of END in a decode pass, IN_POS moved past the eight bytes. -/
def Obligations.EndMarkerReadsAsIndexOpcodes : Prop :=
  ∀ (s : State) (rest : List Byte), s.Awaiting → 8 ≤ s.remaining.toNat →
    s.inBytes.drop s.inPos = [0, 0, 0, 0, 0, 0, 0, 1] ++ rest →
    ∃ t, exec .endMarker s = .next t ∧
      stepN 8 (s.withCommands (List.replicate 8 (Request.bare 0x03))) =
        .next { t with inPos := s.inPos + 8, commands := [] } ∧
      t.remaining.toNat + 8 = s.remaining.toNat ∧
      t.out = s.out ∧ t.run = s.run ∧ s.SameRest t

/-- R141: a decode pass with count n emits n pixels and ends DONE, or emits k < n pixels and ends FAILED
with CAUSE TRUNCATED_INPUT and REMAINING n − k; every pull after the end responds END. -/
def Obligations.DecodePassCount : Prop :=
  ∀ (s : State) (n : Nat) (bytes : List Byte), n < 2 ^ 64 →
    ∃ (t : State) (ps : List Pixel),
      stepN (n + 1) (s.withCommands (decodePass n bytes)) = .next t ∧
      ((t.phase = .done ∧ t.cause = .none ∧ t.remaining = 0 ∧ ps.length = n ∧
        t.responses = s.responses ++ .ok :: ps.map .pixel) ∨
       (t.phase = .failed ∧ t.cause = .truncatedInput ∧ ps.length < n ∧
        t.remaining.toNat = n - ps.length ∧
        t.responses = s.responses ++ .ok :: ps.map .pixel ++ .fail .truncatedInput ::
          List.replicate (n - ps.length - 1) .endOfPass))

/-! ## The encoder (42_encoder.md) -/

/-- R175 to R180, R184: the emitters. In an encode pass an opcode's meaning, and END's, is to append its
bytes to OUT and nothing else. That an opcode's meaning there is its emitter is log entry 1; that END's is
the write of the marker is log entry 4. -/
def Obligations.OpcodesEmitTheirBytes : Prop :=
  ∀ s : State, s.mode = .enc →
    (∀ i : BitVec 6, exec (.index i) s = .next { s with out := s.out ++ [0b00#2 ++ i] }) ∧
    (∀ dr dg db : Int, (Instr.diff dr dg db).wf = true → ∃ b : Byte,
      exec (.diff dr dg db) s = .next { s with out := s.out ++ [b] } ∧
      (b.toNat : Int) = 0x40 + 16 * (dr + 2) + 4 * (dg + 2) + (db + 2)) ∧
    (∀ dg x y : Int, (Instr.luma dg x y).wf = true → ∃ b0 b1 : Byte,
      exec (.luma dg x y) s = .next { s with out := s.out ++ [b0, b1] } ∧
      (b0.toNat : Int) = 0x80 + (dg + 32) ∧ (b1.toNat : Int) = 16 * (x + 8) + (y + 8)) ∧
    (∀ len : Nat, (Instr.run len).wf = true →
      exec (.run len) s = .next { s with out := s.out ++ [runByte len] }) ∧
    (∀ r g b : Byte, exec (.rgb r g b) s = .next { s with out := s.out ++ [0xFE, r, g, b] }) ∧
    (∀ r g b a : Byte, exec (.rgba r g b a) s = .next { s with out := s.out ++ [0xFF, r, g, b, a] }) ∧
    exec .endMarker s = .next { s with out := s.out ++ [0, 0, 0, 0, 0, 0, 0, 1] }

/-- R170, R171, R182, R183, R184: ENCODE_PIXEL of a pixel equal to PX. The run grows by one and is written
as `FD` when it reaches 62; nothing else is written and no cache slot changes, but the step that uses up
the budget finishes the pass. -/
def Obligations.EncodePixelExtendsRun : Prop :=
  ∀ s : State, s.Encoding →
    ∃ t, exec (.encodePixel s.px) s = .next t ∧
      (let pending := if s.run.toNat = 61 then 0 else s.run.toNat + 1
       let written : List Byte := if s.run.toNat = 61 then [0xFD] else []
       t.run.toNat = (if s.remaining = 1 then 0 else pending) ∧
       t.out = s.out ++ written ++ (if s.remaining = 1 then finishBytes pending else [])) ∧
      t.px = s.px ∧ t.cache = s.cache ∧ s.CountsPixel t ∧
      t.responses = s.responses ++ [.ok] ∧ s.SameRest t

/-- R170, R172, R174, R181 to R184: ENCODE_PIXEL of a pixel that differs from PX. The pending run is
flushed, the selected opcode is written, slot `Hash(px)` takes the pixel, and the step that uses up the
budget finishes the pass. -/
def Obligations.EncodePixelResolves : Prop :=
  ∀ (s : State) (px : Pixel), s.Encoding → px ≠ s.px →
    ∃ t, exec (.encodePixel px) s = .next t ∧
      t.out = s.out ++ flushBytes s.run.toNat ++ encodeStream (s.select px) ++
        (if s.remaining = 1 then finishBytes 0 else []) ∧
      t.px = px ∧ t.run = 0 ∧
      (∀ j, t.readSlot j = if j = slotHash px then px else s.readSlot j) ∧
      s.CountsPixel t ∧ t.responses = s.responses ++ [.ok] ∧ s.SameRest t

/-- R174, with the deltas of R173 given as the numbers in −128..127 that are congruent to the channel
differences: the selector's fixed order. -/
def Obligations.SelectorFollowsFixedOrder : Prop :=
  ∀ (s : State) (px : Pixel) (dr dg db : Int),
    (-128 ≤ dr ∧ dr ≤ 127 ∧ (px.r.toNat - s.px.r.toNat - dr) % 256 = 0) →
    (-128 ≤ dg ∧ dg ≤ 127 ∧ (px.g.toNat - s.px.g.toNat - dg) % 256 = 0) →
    (-128 ≤ db ∧ db ≤ 127 ∧ (px.b.toNat - s.px.b.toNat - db) % 256 = 0) →
    s.select px =
      if s.readSlot (slotHash px) = px then .index (slotHash px)
      else if px.a = s.px.a then
        if (-2 ≤ dr ∧ dr ≤ 1) ∧ (-2 ≤ dg ∧ dg ≤ 1) ∧ (-2 ≤ db ∧ db ≤ 1) then .diff dr dg db
        else if (-32 ≤ dg ∧ dg ≤ 31) ∧ (-8 ≤ dr - dg ∧ dr - dg ≤ 7) ∧ (-8 ≤ db - dg ∧ db - dg ≤ 7) then
          .luma dg (dr - dg) (db - dg)
        else .rgb px.r px.g px.b
      else .rgba px.r px.g px.b px.a

/-- R173: wrapping `dr_dg` and `db_dg` to 8 bits gives the same LUMA test. -/
def Obligations.WrappedRelativeDeltasSelectTheSame : Prop :=
  ∀ cr pr cg pg cb pb : Byte,
    let dr := channelDelta cr pr
    let dg := channelDelta cg pg
    let db := channelDelta cb pb
    fitsLuma dg (sext8 (wrap8 (dr - dg))) (sext8 (wrap8 (db - dg))) = fitsLuma dg (dr - dg) (db - dg)

/-- R117, R284, one step of the lockstep: the opcode the selector chooses is well formed, and a decoder
with the same CACHE and PX resolves exactly the pixel from it and ends with the same CACHE. -/
def Obligations.SelectedOpcodeDecodesToPixel : Prop :=
  ∀ (s d : State) (px : Pixel), s.Encoding → px ≠ s.px → d.Decoding →
    d.cache = s.cache → d.px = s.px →
    (s.select px).wf = true ∧ (s.select px).isOpcode = true ∧
    ∃ t, exec (s.select px) d = .next t ∧ t.px = px ∧ t.cache = (s.encodeNew px).cache ∧
      t.responses = d.responses ++ [.pixel px]

/-- R184, R225: ENCODE_FINISH flushes the pending run, writes the end marker and ends the pass; in DONE it
changes nothing; outside an encode pass it is REJECTED. -/
def Obligations.EncodeFinishEndsPass : Prop :=
  (∀ s : State, s.Encoding →
    ∃ t, exec .encodeFinish s = .next t ∧
      t.out = s.out ++ finishBytes s.run.toNat ∧ t.run = 0 ∧ t.phase = .done ∧
      t.px = s.px ∧ t.cache = s.cache ∧ t.remaining = s.remaining ∧
      t.responses = s.responses ++ [.ok] ∧ s.SameRest t) ∧
  (∀ s : State, s.mode = .enc → s.phase = .done →
    exec .encodeFinish s = .next { s with responses := s.responses ++ [.ok] }) ∧
  (∀ s : State, ¬ (s.mode = .enc ∧ (s.phase = .active ∨ s.phase = .done)) →
    exec .encodeFinish s = .next { s with responses := s.responses ++ [.rejected] })

/-- R257, R185: the encoder raises no fault, for any pixel, PX, RUN and CACHE. -/
def Obligations.EncoderRaisesNoFault : Prop :=
  ∀ (s : State) (p : Pixel) (i : Instr), s.mode = .enc → i ∈ [.encodePixel p, .encodeFinish] →
    ∃ t, exec i s = .next t ∧ t.cause = s.cause ∧ (t.phase = .failed → s.phase = .failed) ∧
      ∀ c, t.responses ≠ s.responses ++ [.fail c]

/-! ## Commands (43_commands.md) -/

/-- R221: START_DECODE, from any state. That OUT is kept is the model's reading of R221 and R37, log entry
6 (vector V-C10 shows it). -/
def Obligations.StartDecodeBeginsPass : Prop :=
  ∀ (s : State) (n : BitVec 64) (bytes : List Byte),
    ∃ t, exec (.startDecode n bytes) s = .next t ∧
      (∀ i, t.readSlot i = ⟨0, 0, 0, 0⟩) ∧ t.px = ⟨0, 0, 0, 255⟩ ∧ t.run = 0 ∧ t.remaining = n ∧
      t.mode = .dec ∧ t.cause = .none ∧ t.input = some bytes ∧ t.inPos = 0 ∧
      t.phase = (if 0 < n.toNat then .active else .done) ∧
      t.responses = s.responses ++ [.ok] ∧ t.out = s.out ∧ t.commands = s.commands

/-- R222: START_ENCODE, from any state; a budget of 0 writes the end marker and is DONE at once. That IN
and IN_POS are kept is the model's reading of R222 and R37, log entry 6. -/
def Obligations.StartEncodeBeginsPass : Prop :=
  ∀ (s : State) (n : BitVec 64),
    ∃ t, exec (.startEncode n) s = .next t ∧
      (∀ i, t.readSlot i = ⟨0, 0, 0, 0⟩) ∧ t.px = ⟨0, 0, 0, 255⟩ ∧ t.run = 0 ∧ t.remaining = n ∧
      t.mode = .enc ∧ t.cause = .none ∧
      t.out = (if n = 0 then [0, 0, 0, 0, 0, 0, 0, 1] else []) ∧
      t.phase = (if n = 0 then .done else .active) ∧
      t.responses = s.responses ++ [.ok] ∧
      t.input = s.input ∧ t.inPos = s.inPos ∧ t.commands = s.commands

/-- R227: the validity table's REJECTED, END, IGNORED and OK entries and the reserved codes; such a
command gives its response and changes nothing else. -/
def Obligations.CommandValidityTable : Prop :=
  ∀ s : State,
    let answers (i : Instr) (x : Response) : Prop :=
      exec i s = .next { s with responses := s.responses ++ [x] }
    (s.phase = .idle → s.mode = .dec →
      answers .decodeNext .rejected ∧ (∀ p, answers (.encodePixel p) .rejected) ∧
      answers .encodeFinish .rejected) ∧
    (s.phase = .active → s.mode = .dec →
      (∀ p, answers (.encodePixel p) .rejected) ∧ answers .encodeFinish .rejected) ∧
    (s.phase = .active → s.mode = .enc → answers .decodeNext .rejected) ∧
    (s.phase = .done → s.mode = .dec →
      answers .decodeNext .endOfPass ∧ (∀ p, answers (.encodePixel p) .rejected) ∧
      answers .encodeFinish .rejected) ∧
    (s.phase = .done → s.mode = .enc →
      answers .decodeNext .rejected ∧ (∀ p, answers (.encodePixel p) .ignored) ∧
      answers .encodeFinish .ok) ∧
    (s.phase = .failed → s.mode = .dec →
      answers .decodeNext .endOfPass ∧ (∀ p, answers (.encodePixel p) .rejected) ∧
      answers .encodeFinish .rejected) ∧
    (∀ code : Byte, code = 0 ∨ 7 ≤ code.toNat → answers (.reservedCommand code) .rejected)

/-- R34, R35, R226: READ_REG returns the status view, in every phase, and changes no state. -/
def Obligations.ReadRegReturnsStatusView : Prop :=
  ∀ (s : State) (k : Byte), ∃ w : BitVec 32,
    exec (.readReg k) s = .next { s with responses := s.responses ++ [.value w] } ∧
    (k = 0 →
      (w.extractLsb' 0 3).toNat =
        (match s.phase with | .idle => 0 | .active => 1 | .done => 2 | .failed => 3) ∧
      (w.extractLsb' 3 1).toNat = (match s.mode with | .dec => 0 | .enc => 1) ∧
      (w.extractLsb' 4 2).toNat =
        (match s.cause with
          | .none => 0 | .truncatedInput => 1 | .malformedOpcode => 2 | .invalidHeader => 3) ∧
      w.extractLsb' 6 6 = s.run ∧ w.extractLsb' 12 20 = 0) ∧
    (k = 1 → w = s.remaining.extractLsb' 0 32) ∧
    (k = 2 → w = s.remaining.extractLsb' 32 32) ∧
    (3 ≤ k.toNat → w = 0)

/-! ## The whole machine -/

/-- R13, R220: a step is the meaning of the next command issued, at the state with that command taken off
the port. -/
def Obligations.StepRunsIssuedCommand : Prop :=
  ∀ (s : State) (c : Request) (rest : List Request), s.commands = c :: rest →
    step s = exec (decodeCommand c) { s with commands := rest }

/-- R13, R130, R132: with DECODE_NEXT issued, a decode pass in AWAITING_OPCODE and an opcode at IN_POS, a
step is the opcode's meaning, the command taken off the port and IN_POS moved past the opcode. -/
def Obligations.StepRunsDecodedOpcode : Prop :=
  ∀ (s : State) (c : Request) (rest : List Request) (i : Instr) (k : Nat),
    s.commands = c :: rest → c.code = 0x03 → s.Awaiting →
    decodeOpcode (s.inBytes.drop s.inPos) = .ok (i, k) →
    step s = exec i { s with commands := rest, inPos := s.inPos + i.byteLength }

/-- R36: the state after power-on reset. -/
def Obligations.ResetState : Prop :=
  (∀ i, State.reset.readSlot i = ⟨0, 0, 0, 0⟩) ∧ State.reset.px = ⟨0, 0, 0, 255⟩ ∧
  State.reset.run = 0 ∧ State.reset.remaining = 0 ∧ State.reset.phase = .idle ∧
  State.reset.mode = .dec ∧ State.reset.cause = .none ∧ State.reset.input = none ∧
  State.reset.inPos = 0 ∧ State.reset.out = []

/-- R31 at reset. -/
def Obligations.ResetMeetsInvariant : Prop := State.reset.Inv

/-- R31: every step preserves the invariant, from every state that meets it. -/
def Obligations.StepKeepsInvariant : Prop :=
  (∀ s t : State, s.Inv → step s = .next t → t.Inv) ∧ slotHash ⟨0, 0, 0, 0⟩ = 0

/-- R90, R185, R252: no step ends in a fault of the machine or a refusal, from any state. With no command
issued the block rests, which is the model's choice (log entry 2). -/
def Obligations.StepAlwaysAnswersNext : Prop :=
  ∀ s : State, (∃ t, step s = .next t) ∧ (s.commands = [] → step s = .next s)

/-- R228: every command returns exactly one response and is taken off the port. -/
def Obligations.EveryCommandGivesOneResponse : Prop :=
  ∀ (s : State) (c : Request) (rest : List Request), s.commands = c :: rest →
    ∃ t x, step s = .next t ∧ t.responses = s.responses ++ [x] ∧ t.commands = rest

/-- R25: only START_DECODE and START_ENCODE write MODE. -/
def Obligations.OnlyStartCommandsWriteMode : Prop :=
  ∀ (s t : State) (c : Request) (rest : List Request), s.commands = c :: rest → step s = .next t →
    (c.code = 0x01 → t.mode = .dec) ∧ (c.code = 0x02 → t.mode = .enc) ∧
    (c.code ≠ 0x01 → c.code ≠ 0x02 → t.mode = s.mode)

/-- R26, R252, R253: no step sets CAUSE to MALFORMED_OPCODE or INVALID_HEADER; CAUSE changes only to NONE
at a pass start or to TRUNCATED_INPUT on entering FAILED. -/
def Obligations.ReservedCausesAreNeverSet : Prop :=
  ∀ s t : State, step s = .next t →
    t.cause = s.cause ∨ t.cause = .none ∨ (t.cause = .truncatedInput ∧ t.phase = .failed)

/-- R29, R59: OUT is append-only; only START_ENCODE empties it, and no decode pass touches it. -/
def Obligations.OutIsAppendOnly : Prop :=
  ∀ (s t : State) (c : Request) (rest : List Request), s.commands = c :: rest → step s = .next t →
    c.code ≠ 0x02 → s.out <+: t.out ∧ (s.mode = .dec → t.out = s.out)

/-- R28, R38, R64: the block never writes IN, and IN_POS never goes back within a pass. START_ENCODE is
among the commands: that it keeps IN and IN_POS is the model's reading, log entry 6. -/
def Obligations.InputIsOnlyRead : Prop :=
  ∀ (s t : State) (c : Request) (rest : List Request), s.Inv → s.commands = c :: rest →
    step s = .next t → c.code ≠ 0x01 →
    t.input = s.input ∧ s.inPos ≤ t.inPos ∧ t.inPos ≤ t.inBytes.length

/-- R23: outside a pass start, REMAINING goes down by exactly 1 with every pixel output or accepted, and
by nothing else. -/
def Obligations.RemainingCountsPixels : Prop :=
  ∀ (s t : State) (c : Request) (rest : List Request), s.Inv → s.commands = c :: rest →
    step s = .next t → c.code ≠ 0x01 → c.code ≠ 0x02 →
    let counted : Prop := (∃ p, t.responses = s.responses ++ [.pixel p]) ∨
      (c.code = 0x04 ∧ t.responses = s.responses ++ [.ok])
    (counted → t.remaining.toNat + 1 = s.remaining.toNat) ∧ (¬ counted → t.remaining = s.remaining)

/-- R65, R113, R285: outside a pass start, a step changes at most the cache slot `Hash(PX)` of the pixel it
resolved, and then that slot holds that pixel. The step is a pull that reads an opcode other than RUN, or
an ENCODE_PIXEL of a pixel that differs from PX: no run repetition changes a slot. -/
def Obligations.CacheChangesOnlyAtResolvedPixel : Prop :=
  ∀ (s t : State) (c : Request) (rest : List Request) (j : SlotIndex),
    s.commands = c :: rest → step s = .next t → c.code ≠ 0x01 → c.code ≠ 0x02 →
    t.readSlot j ≠ s.readSlot j →
    j = slotHash t.px ∧ t.readSlot j = t.px ∧ s.phase = .active ∧
    ((s.mode = .dec ∧ c.code = 0x03 ∧ s.run = 0 ∧
        ∃ i k, decodeOpcode (s.inBytes.drop s.inPos) = .ok (i, k) ∧ ∀ len, i ≠ .run len) ∨
     (s.mode = .enc ∧ c.code = 0x04 ∧ t.px = Pixel.unpack c.pixel ∧ t.px ≠ s.px))

/-- R281: no value of one pass can be seen in a later pass. From any two states, the same commands that
begin with START_DECODE give the same responses and the same state of the pass; and beginning with
START_ENCODE they give the same OUT as well. -/
def Obligations.PassStartErasesHistory : Prop :=
  ∀ (s1 s2 : State) (c : Request) (cs : List Request), c.code = 0x01 ∨ c.code = 0x02 →
    ∃ t1 t2 rs,
      stepN (cs.length + 1) (s1.withCommands (c :: cs)) = .next t1 ∧
      stepN (cs.length + 1) (s2.withCommands (c :: cs)) = .next t2 ∧
      t1.responses = s1.responses ++ rs ∧ t2.responses = s2.responses ++ rs ∧
      t1.cache = t2.cache ∧ t1.px = t2.px ∧ t1.run = t2.run ∧ t1.remaining = t2.remaining ∧
      t1.phase = t2.phase ∧ t1.mode = t2.mode ∧ t1.cause = t2.cause ∧
      (t1.mode = .dec → t1.input = t2.input ∧ t1.inPos = t2.inPos) ∧
      (t1.mode = .enc → t1.out = t2.out)

/-- R186: the round trip. Encode any n ≥ 1 pixels; decode OUT with count n: the same pixels, DONE, and
every byte of OUT read but the 8 of the end marker. -/
def Obligations.EncodeThenDecodeGivesPixelsBack : Prop :=
  ∀ (s : State) (ps : List Pixel), 1 ≤ ps.length → ps.length < 2 ^ 64 →
    ∃ e d,
      stepN (ps.length + 1) (s.withCommands (encodePass ps.length ps)) = .next e ∧ e.phase = .done ∧
      stepN (ps.length + 1) (e.withCommands (decodePass ps.length e.out)) = .next d ∧ d.phase = .done ∧
      d.responses = e.responses ++ .ok :: ps.map .pixel ∧
      d.inPos + 8 = e.out.length ∧ d.cache = e.cache ∧ d.px = e.px

/-- R187: short input. ENCODE_FINISH after k < n pixels; a decoder started with count n emits those k
pixels first. If n − k is at most 8 it then emits n − k pixels from slots 0 and 1, ends DONE, and has read
as many bytes of the marker; otherwise it emits all 8, faults, and every later pull answers END. -/
def Obligations.ShortInputDecodesThenRunsIntoMarker : Prop :=
  ∀ (s : State) (ps : List Pixel) (n : Nat), ps.length < n → n < 2 ^ 64 →
    ∃ e d rs,
      stepN (ps.length + 2) (s.withCommands (encodePass n ps ++ [Request.bare 0x05])) = .next e ∧
      e.phase = .done ∧
      stepN (n + 1) (e.withCommands (decodePass n e.out)) = .next d ∧
      d.responses = e.responses ++ .ok :: ps.map .pixel ++ rs ∧
      (n - ps.length ≤ 8 →
        d.phase = .done ∧ d.inPos + 8 = e.out.length + (n - ps.length) ∧
        rs = ((markerPixels e).take (n - ps.length)).map .pixel) ∧
      (8 < n - ps.length →
        d.phase = .failed ∧ d.cause = .truncatedInput ∧
        rs = (markerPixels e).map .pixel ++ .fail .truncatedInput ::
          List.replicate (n - ps.length - 9) .endOfPass)

/-- R260: blocks share nothing; a step of block k leaves every other block as it is. -/
def Obligations.InstancesAreIndependent : Prop :=
  ∀ (k j : Nat) (blocks after : List State), stepInstance k blocks = .next after →
    after.length = blocks.length ∧ (j ≠ k → after[j]? = blocks[j]?) ∧
    (∀ s t, blocks[k]? = some s → step s = .next t → after[k]? = some t)

/-! ## Framing outside the block (20_memory.md R51 to R53) -/

/-- R51, R52, R56: header decode of a valid header's bytes gives it back, with the bytes after it. -/
def Obligations.HeaderRoundTrip : Prop :=
  ∀ (h : Header) (rest : List Byte), h.valid = true →
    (encodeHeader h).length = 14 ∧ decodeHeader (encodeHeader h ++ rest) = .ok (h, rest)

/-- R52, R253: which byte sequences the header codec rejects, with INVALID_HEADER. -/
def Obligations.HeaderRejection : Prop :=
  ∀ bytes : List Byte,
    (∃ h rest, decodeHeader bytes = .ok (h, rest) ∧ h.valid = true ∧ bytes = encodeHeader h ++ rest) ∨
    (decodeHeader bytes = .error .invalidHeader ∧
      ∀ h rest, h.valid = true → bytes ≠ encodeHeader h ++ rest)

/-- R53, R282: the pixel count the host passes is the exact product, and lies in 1..(2^32−1)^2. -/
def Obligations.PixelCountIsExact : Prop :=
  ∀ h : Header, h.valid = true →
    h.pixelCount.toNat = h.width.toNat * h.height.toNat ∧ 1 ≤ h.pixelCount.toNat ∧
    h.pixelCount.toNat ≤ (2 ^ 32 - 1) ^ 2

/-! ## The bytes of a decode pass (41_decoder.md R141) -/

/-- R141, its last sentence: a decode pass reads exactly the bytes of its opcodes. One that ends DONE has
read the opcodes whose pixels first make up the count, and IN_POS is the sum of their lengths. One that
ends FAILED has read every whole opcode, their pixels are those it emitted, what is left is no whole
opcode, and IN_POS is the end of IN (R254). -/
def Obligations.DecodePassReadsExactlyItsOpcodes : Prop :=
  ∀ (s : State) (n : Nat) (bytes : List Byte), n < 2 ^ 64 →
    ∃ (t : State) (ops : List Instr) (rest : List Byte),
      stepN (n + 1) (s.withCommands (decodePass n bytes)) = .next t ∧
      bytes = ops.flatMap encodeStream ++ rest ∧ (∀ i ∈ ops, i.isOpcode = true ∧ i.wf = true) ∧
      ((t.phase = .done ∧ t.inPos = (ops.map Instr.byteLength).sum ∧
        n ≤ (ops.map opcodePixels).sum ∧ (ops ≠ [] → (ops.dropLast.map opcodePixels).sum < n)) ∨
       (t.phase = .failed ∧ t.inPos = bytes.length ∧
        t.remaining.toNat + (ops.map opcodePixels).sum = n ∧ decodeOpcode rest = .error .truncated))
end

