-- ==== Sys2Proof/Laws/State.lean ====
section
/-! SUPPORT. One lemma per field per operation on State, so that no proof unfolds a record update. -/

namespace Sys2Proof.Machine.State

/-! ### withPx -/

@[simp] theorem cache_withPx (s : State) (p : Pixel) : (s.withPx p).cache = s.cache := rfl
@[simp] theorem px_withPx (s : State) (p : Pixel) : (s.withPx p).px = p := rfl
@[simp] theorem run_withPx (s : State) (p : Pixel) : (s.withPx p).run = s.run := rfl
@[simp] theorem remaining_withPx (s : State) (p : Pixel) :
    (s.withPx p).remaining = s.remaining := rfl
@[simp] theorem phase_withPx (s : State) (p : Pixel) : (s.withPx p).phase = s.phase := rfl
@[simp] theorem mode_withPx (s : State) (p : Pixel) : (s.withPx p).mode = s.mode := rfl
@[simp] theorem cause_withPx (s : State) (p : Pixel) : (s.withPx p).cause = s.cause := rfl
@[simp] theorem input_withPx (s : State) (p : Pixel) : (s.withPx p).input = s.input := rfl
@[simp] theorem inPos_withPx (s : State) (p : Pixel) : (s.withPx p).inPos = s.inPos := rfl
@[simp] theorem out_withPx (s : State) (p : Pixel) : (s.withPx p).out = s.out := rfl
@[simp] theorem commands_withPx (s : State) (p : Pixel) : (s.withPx p).commands = s.commands := rfl
@[simp] theorem responses_withPx (s : State) (p : Pixel) :
    (s.withPx p).responses = s.responses := rfl
@[simp] theorem readSlot_withPx (s : State) (p : Pixel) (j : SlotIndex) :
    (s.withPx p).readSlot j = s.readSlot j := rfl
@[simp] theorem inBytes_withPx (s : State) (p : Pixel) :
    (s.withPx p).inBytes = s.inBytes := rfl

/-! ### withRun -/

@[simp] theorem cache_withRun (s : State) (r : BitVec 6) : (s.withRun r).cache = s.cache := rfl
@[simp] theorem px_withRun (s : State) (r : BitVec 6) : (s.withRun r).px = s.px := rfl
@[simp] theorem run_withRun (s : State) (r : BitVec 6) : (s.withRun r).run = r := rfl
@[simp] theorem remaining_withRun (s : State) (r : BitVec 6) :
    (s.withRun r).remaining = s.remaining := rfl
@[simp] theorem phase_withRun (s : State) (r : BitVec 6) : (s.withRun r).phase = s.phase := rfl
@[simp] theorem mode_withRun (s : State) (r : BitVec 6) : (s.withRun r).mode = s.mode := rfl
@[simp] theorem cause_withRun (s : State) (r : BitVec 6) : (s.withRun r).cause = s.cause := rfl
@[simp] theorem input_withRun (s : State) (r : BitVec 6) : (s.withRun r).input = s.input := rfl
@[simp] theorem inPos_withRun (s : State) (r : BitVec 6) : (s.withRun r).inPos = s.inPos := rfl
@[simp] theorem out_withRun (s : State) (r : BitVec 6) : (s.withRun r).out = s.out := rfl
@[simp] theorem commands_withRun (s : State) (r : BitVec 6) :
    (s.withRun r).commands = s.commands := rfl
@[simp] theorem responses_withRun (s : State) (r : BitVec 6) :
    (s.withRun r).responses = s.responses := rfl
@[simp] theorem readSlot_withRun (s : State) (r : BitVec 6) (j : SlotIndex) :
    (s.withRun r).readSlot j = s.readSlot j := rfl
@[simp] theorem inBytes_withRun (s : State) (r : BitVec 6) :
    (s.withRun r).inBytes = s.inBytes := rfl

/-! ### advance -/

@[simp] theorem cache_advance (s : State) (k : Nat) : (s.advance k).cache = s.cache := rfl
@[simp] theorem px_advance (s : State) (k : Nat) : (s.advance k).px = s.px := rfl
@[simp] theorem run_advance (s : State) (k : Nat) : (s.advance k).run = s.run := rfl
@[simp] theorem remaining_advance (s : State) (k : Nat) :
    (s.advance k).remaining = s.remaining := rfl
@[simp] theorem phase_advance (s : State) (k : Nat) : (s.advance k).phase = s.phase := rfl
@[simp] theorem mode_advance (s : State) (k : Nat) : (s.advance k).mode = s.mode := rfl
@[simp] theorem cause_advance (s : State) (k : Nat) : (s.advance k).cause = s.cause := rfl
@[simp] theorem input_advance (s : State) (k : Nat) : (s.advance k).input = s.input := rfl
@[simp] theorem inPos_advance (s : State) (k : Nat) : (s.advance k).inPos = s.inPos + k := rfl
@[simp] theorem out_advance (s : State) (k : Nat) : (s.advance k).out = s.out := rfl
@[simp] theorem commands_advance (s : State) (k : Nat) : (s.advance k).commands = s.commands := rfl
@[simp] theorem responses_advance (s : State) (k : Nat) :
    (s.advance k).responses = s.responses := rfl
@[simp] theorem readSlot_advance (s : State) (k : Nat) (j : SlotIndex) :
    (s.advance k).readSlot j = s.readSlot j := rfl
@[simp] theorem inBytes_advance (s : State) (k : Nat) :
    (s.advance k).inBytes = s.inBytes := rfl

/-! ### withCommands -/

@[simp] theorem cache_withCommands (s : State) (cs : List Request) :
    (s.withCommands cs).cache = s.cache := rfl
@[simp] theorem px_withCommands (s : State) (cs : List Request) :
    (s.withCommands cs).px = s.px := rfl
@[simp] theorem run_withCommands (s : State) (cs : List Request) :
    (s.withCommands cs).run = s.run := rfl
@[simp] theorem remaining_withCommands (s : State) (cs : List Request) :
    (s.withCommands cs).remaining = s.remaining := rfl
@[simp] theorem phase_withCommands (s : State) (cs : List Request) :
    (s.withCommands cs).phase = s.phase := rfl
@[simp] theorem mode_withCommands (s : State) (cs : List Request) :
    (s.withCommands cs).mode = s.mode := rfl
@[simp] theorem cause_withCommands (s : State) (cs : List Request) :
    (s.withCommands cs).cause = s.cause := rfl
@[simp] theorem input_withCommands (s : State) (cs : List Request) :
    (s.withCommands cs).input = s.input := rfl
@[simp] theorem inPos_withCommands (s : State) (cs : List Request) :
    (s.withCommands cs).inPos = s.inPos := rfl
@[simp] theorem out_withCommands (s : State) (cs : List Request) :
    (s.withCommands cs).out = s.out := rfl
@[simp] theorem commands_withCommands (s : State) (cs : List Request) :
    (s.withCommands cs).commands = cs := rfl
@[simp] theorem responses_withCommands (s : State) (cs : List Request) :
    (s.withCommands cs).responses = s.responses := rfl
@[simp] theorem readSlot_withCommands (s : State) (cs : List Request) (j : SlotIndex) :
    (s.withCommands cs).readSlot j = s.readSlot j := rfl
@[simp] theorem inBytes_withCommands (s : State) (cs : List Request) :
    (s.withCommands cs).inBytes = s.inBytes := rfl

/-! ### startDecodePass -/

@[simp] theorem cache_startDecodePass (s : State) (n : BitVec 64) (stream : List Byte) :
    (s.startDecodePass n stream).cache = initCache := rfl
@[simp] theorem px_startDecodePass (s : State) (n : BitVec 64) (stream : List Byte) :
    (s.startDecodePass n stream).px = Config.initPixel := rfl
@[simp] theorem run_startDecodePass (s : State) (n : BitVec 64) (stream : List Byte) :
    (s.startDecodePass n stream).run = 0 := rfl
@[simp] theorem remaining_startDecodePass (s : State) (n : BitVec 64) (stream : List Byte) :
    (s.startDecodePass n stream).remaining = n := rfl
@[simp] theorem phase_startDecodePass (s : State) (n : BitVec 64) (stream : List Byte) :
    (s.startDecodePass n stream).phase = startPhase n := rfl
@[simp] theorem mode_startDecodePass (s : State) (n : BitVec 64) (stream : List Byte) :
    (s.startDecodePass n stream).mode = .dec := rfl
@[simp] theorem cause_startDecodePass (s : State) (n : BitVec 64) (stream : List Byte) :
    (s.startDecodePass n stream).cause = .none := rfl
@[simp] theorem input_startDecodePass (s : State) (n : BitVec 64) (stream : List Byte) :
    (s.startDecodePass n stream).input = some stream := rfl
@[simp] theorem inPos_startDecodePass (s : State) (n : BitVec 64) (stream : List Byte) :
    (s.startDecodePass n stream).inPos = 0 := rfl
@[simp] theorem out_startDecodePass (s : State) (n : BitVec 64) (stream : List Byte) :
    (s.startDecodePass n stream).out = s.out := rfl
@[simp] theorem commands_startDecodePass (s : State) (n : BitVec 64) (stream : List Byte) :
    (s.startDecodePass n stream).commands = s.commands := rfl
@[simp] theorem responses_startDecodePass (s : State) (n : BitVec 64) (stream : List Byte) :
    (s.startDecodePass n stream).responses = s.responses := rfl
@[simp] theorem inBytes_startDecodePass (s : State) (n : BitVec 64) (stream : List Byte) :
    (s.startDecodePass n stream).inBytes = stream := rfl

/-! ### startEncodePass -/

@[simp] theorem cache_startEncodePass (s : State) (n : BitVec 64) :
    (s.startEncodePass n).cache = initCache := rfl
@[simp] theorem px_startEncodePass (s : State) (n : BitVec 64) :
    (s.startEncodePass n).px = Config.initPixel := rfl
@[simp] theorem run_startEncodePass (s : State) (n : BitVec 64) :
    (s.startEncodePass n).run = 0 := rfl
@[simp] theorem remaining_startEncodePass (s : State) (n : BitVec 64) :
    (s.startEncodePass n).remaining = n := rfl
@[simp] theorem phase_startEncodePass (s : State) (n : BitVec 64) :
    (s.startEncodePass n).phase = .active := rfl
@[simp] theorem mode_startEncodePass (s : State) (n : BitVec 64) :
    (s.startEncodePass n).mode = .enc := rfl
@[simp] theorem cause_startEncodePass (s : State) (n : BitVec 64) :
    (s.startEncodePass n).cause = .none := rfl
@[simp] theorem input_startEncodePass (s : State) (n : BitVec 64) :
    (s.startEncodePass n).input = s.input := rfl
@[simp] theorem inPos_startEncodePass (s : State) (n : BitVec 64) :
    (s.startEncodePass n).inPos = s.inPos := rfl
@[simp] theorem out_startEncodePass (s : State) (n : BitVec 64) :
    (s.startEncodePass n).out = [] := rfl
@[simp] theorem commands_startEncodePass (s : State) (n : BitVec 64) :
    (s.startEncodePass n).commands = s.commands := rfl
@[simp] theorem responses_startEncodePass (s : State) (n : BitVec 64) :
    (s.startEncodePass n).responses = s.responses := rfl
@[simp] theorem inBytes_startEncodePass (s : State) (n : BitVec 64) :
    (s.startEncodePass n).inBytes = s.inBytes := rfl

/-! ### writeSlot -/

@[simp] theorem cache_writeSlot (s : State) (i : SlotIndex) (p : Pixel) :
    (s.writeSlot i p).cache = s.cache.set i.toNat p i.isLt := rfl
@[simp] theorem px_writeSlot (s : State) (i : SlotIndex) (p : Pixel) :
    (s.writeSlot i p).px = s.px := rfl
@[simp] theorem run_writeSlot (s : State) (i : SlotIndex) (p : Pixel) :
    (s.writeSlot i p).run = s.run := rfl
@[simp] theorem remaining_writeSlot (s : State) (i : SlotIndex) (p : Pixel) :
    (s.writeSlot i p).remaining = s.remaining := rfl
@[simp] theorem phase_writeSlot (s : State) (i : SlotIndex) (p : Pixel) :
    (s.writeSlot i p).phase = s.phase := rfl
@[simp] theorem mode_writeSlot (s : State) (i : SlotIndex) (p : Pixel) :
    (s.writeSlot i p).mode = s.mode := rfl
@[simp] theorem cause_writeSlot (s : State) (i : SlotIndex) (p : Pixel) :
    (s.writeSlot i p).cause = s.cause := rfl
@[simp] theorem input_writeSlot (s : State) (i : SlotIndex) (p : Pixel) :
    (s.writeSlot i p).input = s.input := rfl
@[simp] theorem inPos_writeSlot (s : State) (i : SlotIndex) (p : Pixel) :
    (s.writeSlot i p).inPos = s.inPos := rfl
@[simp] theorem out_writeSlot (s : State) (i : SlotIndex) (p : Pixel) :
    (s.writeSlot i p).out = s.out := rfl
@[simp] theorem commands_writeSlot (s : State) (i : SlotIndex) (p : Pixel) :
    (s.writeSlot i p).commands = s.commands := rfl
@[simp] theorem responses_writeSlot (s : State) (i : SlotIndex) (p : Pixel) :
    (s.writeSlot i p).responses = s.responses := rfl
@[simp] theorem inBytes_writeSlot (s : State) (i : SlotIndex) (p : Pixel) :
    (s.writeSlot i p).inBytes = s.inBytes := rfl

/-! ### cacheUpdate -/

@[simp] theorem cache_cacheUpdate (s : State) (p : Pixel) :
    (s.cacheUpdate p).cache = s.cache.set (slotHash p).toNat p (slotHash p).isLt := rfl
@[simp] theorem px_cacheUpdate (s : State) (p : Pixel) : (s.cacheUpdate p).px = s.px := rfl
@[simp] theorem run_cacheUpdate (s : State) (p : Pixel) : (s.cacheUpdate p).run = s.run := rfl
@[simp] theorem remaining_cacheUpdate (s : State) (p : Pixel) :
    (s.cacheUpdate p).remaining = s.remaining := rfl
@[simp] theorem phase_cacheUpdate (s : State) (p : Pixel) : (s.cacheUpdate p).phase = s.phase := rfl
@[simp] theorem mode_cacheUpdate (s : State) (p : Pixel) : (s.cacheUpdate p).mode = s.mode := rfl
@[simp] theorem cause_cacheUpdate (s : State) (p : Pixel) : (s.cacheUpdate p).cause = s.cause := rfl
@[simp] theorem input_cacheUpdate (s : State) (p : Pixel) : (s.cacheUpdate p).input = s.input := rfl
@[simp] theorem inPos_cacheUpdate (s : State) (p : Pixel) : (s.cacheUpdate p).inPos = s.inPos := rfl
@[simp] theorem out_cacheUpdate (s : State) (p : Pixel) : (s.cacheUpdate p).out = s.out := rfl
@[simp] theorem commands_cacheUpdate (s : State) (p : Pixel) :
    (s.cacheUpdate p).commands = s.commands := rfl
@[simp] theorem responses_cacheUpdate (s : State) (p : Pixel) :
    (s.cacheUpdate p).responses = s.responses := rfl
@[simp] theorem inBytes_cacheUpdate (s : State) (p : Pixel) :
    (s.cacheUpdate p).inBytes = s.inBytes := rfl

/-! ### writeBytes -/

@[simp] theorem cache_writeBytes (s : State) (bs : List Byte) :
    (s.writeBytes bs).cache = s.cache := rfl
@[simp] theorem px_writeBytes (s : State) (bs : List Byte) : (s.writeBytes bs).px = s.px := rfl
@[simp] theorem run_writeBytes (s : State) (bs : List Byte) : (s.writeBytes bs).run = s.run := rfl
@[simp] theorem remaining_writeBytes (s : State) (bs : List Byte) :
    (s.writeBytes bs).remaining = s.remaining := rfl
@[simp] theorem phase_writeBytes (s : State) (bs : List Byte) :
    (s.writeBytes bs).phase = s.phase := rfl
@[simp] theorem mode_writeBytes (s : State) (bs : List Byte) :
    (s.writeBytes bs).mode = s.mode := rfl
@[simp] theorem cause_writeBytes (s : State) (bs : List Byte) :
    (s.writeBytes bs).cause = s.cause := rfl
@[simp] theorem input_writeBytes (s : State) (bs : List Byte) :
    (s.writeBytes bs).input = s.input := rfl
@[simp] theorem inPos_writeBytes (s : State) (bs : List Byte) :
    (s.writeBytes bs).inPos = s.inPos := rfl
@[simp] theorem out_writeBytes (s : State) (bs : List Byte) :
    (s.writeBytes bs).out = s.out ++ bs := rfl
@[simp] theorem commands_writeBytes (s : State) (bs : List Byte) :
    (s.writeBytes bs).commands = s.commands := rfl
@[simp] theorem responses_writeBytes (s : State) (bs : List Byte) :
    (s.writeBytes bs).responses = s.responses := rfl
@[simp] theorem readSlot_writeBytes (s : State) (bs : List Byte) (j : SlotIndex) :
    (s.writeBytes bs).readSlot j = s.readSlot j := rfl
@[simp] theorem inBytes_writeBytes (s : State) (bs : List Byte) :
    (s.writeBytes bs).inBytes = s.inBytes := rfl

/-! ### emit -/

@[simp] theorem cache_emit (s : State) (i : Instr) : (s.emit i).cache = s.cache := rfl
@[simp] theorem px_emit (s : State) (i : Instr) : (s.emit i).px = s.px := rfl
@[simp] theorem run_emit (s : State) (i : Instr) : (s.emit i).run = s.run := rfl
@[simp] theorem remaining_emit (s : State) (i : Instr) : (s.emit i).remaining = s.remaining := rfl
@[simp] theorem phase_emit (s : State) (i : Instr) : (s.emit i).phase = s.phase := rfl
@[simp] theorem mode_emit (s : State) (i : Instr) : (s.emit i).mode = s.mode := rfl
@[simp] theorem cause_emit (s : State) (i : Instr) : (s.emit i).cause = s.cause := rfl
@[simp] theorem input_emit (s : State) (i : Instr) : (s.emit i).input = s.input := rfl
@[simp] theorem inPos_emit (s : State) (i : Instr) : (s.emit i).inPos = s.inPos := rfl
@[simp] theorem out_emit (s : State) (i : Instr) : (s.emit i).out = s.out ++ encodeStream i := rfl
@[simp] theorem commands_emit (s : State) (i : Instr) : (s.emit i).commands = s.commands := rfl
@[simp] theorem responses_emit (s : State) (i : Instr) : (s.emit i).responses = s.responses := rfl
@[simp] theorem readSlot_emit (s : State) (i : Instr) (j : SlotIndex) :
    (s.emit i).readSlot j = s.readSlot j := rfl
@[simp] theorem inBytes_emit (s : State) (i : Instr) :
    (s.emit i).inBytes = s.inBytes := rfl

/-! ### respond -/

@[simp] theorem cache_respond (s : State) (x : Response) : (s.respond x).cache = s.cache := rfl
@[simp] theorem px_respond (s : State) (x : Response) : (s.respond x).px = s.px := rfl
@[simp] theorem run_respond (s : State) (x : Response) : (s.respond x).run = s.run := rfl
@[simp] theorem remaining_respond (s : State) (x : Response) :
    (s.respond x).remaining = s.remaining := rfl
@[simp] theorem phase_respond (s : State) (x : Response) : (s.respond x).phase = s.phase := rfl
@[simp] theorem mode_respond (s : State) (x : Response) : (s.respond x).mode = s.mode := rfl
@[simp] theorem cause_respond (s : State) (x : Response) : (s.respond x).cause = s.cause := rfl
@[simp] theorem input_respond (s : State) (x : Response) : (s.respond x).input = s.input := rfl
@[simp] theorem inPos_respond (s : State) (x : Response) : (s.respond x).inPos = s.inPos := rfl
@[simp] theorem out_respond (s : State) (x : Response) : (s.respond x).out = s.out := rfl
@[simp] theorem commands_respond (s : State) (x : Response) :
    (s.respond x).commands = s.commands := rfl
@[simp] theorem responses_respond (s : State) (x : Response) :
    (s.respond x).responses = s.responses ++ [x] := rfl
@[simp] theorem readSlot_respond (s : State) (x : Response) (j : SlotIndex) :
    (s.respond x).readSlot j = s.readSlot j := rfl
@[simp] theorem inBytes_respond (s : State) (x : Response) :
    (s.respond x).inBytes = s.inBytes := rfl

/-! ### startPass -/

@[simp] theorem cache_startPass (s : State) (n : BitVec 64) (m : Mode) :
    (s.startPass n m).cache = initCache := rfl
@[simp] theorem px_startPass (s : State) (n : BitVec 64) (m : Mode) :
    (s.startPass n m).px = Config.initPixel := rfl
@[simp] theorem run_startPass (s : State) (n : BitVec 64) (m : Mode) :
    (s.startPass n m).run = 0 := rfl
@[simp] theorem remaining_startPass (s : State) (n : BitVec 64) (m : Mode) :
    (s.startPass n m).remaining = n := rfl
@[simp] theorem phase_startPass (s : State) (n : BitVec 64) (m : Mode) :
    (s.startPass n m).phase = s.phase := rfl
@[simp] theorem mode_startPass (s : State) (n : BitVec 64) (m : Mode) :
    (s.startPass n m).mode = m := rfl
@[simp] theorem cause_startPass (s : State) (n : BitVec 64) (m : Mode) :
    (s.startPass n m).cause = .none := rfl
@[simp] theorem input_startPass (s : State) (n : BitVec 64) (m : Mode) :
    (s.startPass n m).input = s.input := rfl
@[simp] theorem inPos_startPass (s : State) (n : BitVec 64) (m : Mode) :
    (s.startPass n m).inPos = s.inPos := rfl
@[simp] theorem out_startPass (s : State) (n : BitVec 64) (m : Mode) :
    (s.startPass n m).out = s.out := rfl
@[simp] theorem commands_startPass (s : State) (n : BitVec 64) (m : Mode) :
    (s.startPass n m).commands = s.commands := rfl
@[simp] theorem responses_startPass (s : State) (n : BitVec 64) (m : Mode) :
    (s.startPass n m).responses = s.responses := rfl
@[simp] theorem inBytes_startPass (s : State) (n : BitVec 64) (m : Mode) :
    (s.startPass n m).inBytes = s.inBytes := rfl

/-! ### resolve -/

@[simp] theorem cache_resolve (s : State) (p : Pixel) :
    (s.resolve p).cache = s.cache.set (slotHash p).toNat p (slotHash p).isLt := rfl
@[simp] theorem px_resolve (s : State) (p : Pixel) : (s.resolve p).px = p := rfl
@[simp] theorem run_resolve (s : State) (p : Pixel) : (s.resolve p).run = s.run := rfl
@[simp] theorem remaining_resolve (s : State) (p : Pixel) :
    (s.resolve p).remaining = s.remaining := rfl
@[simp] theorem phase_resolve (s : State) (p : Pixel) : (s.resolve p).phase = s.phase := rfl
@[simp] theorem mode_resolve (s : State) (p : Pixel) : (s.resolve p).mode = s.mode := rfl
@[simp] theorem cause_resolve (s : State) (p : Pixel) : (s.resolve p).cause = s.cause := rfl
@[simp] theorem input_resolve (s : State) (p : Pixel) : (s.resolve p).input = s.input := rfl
@[simp] theorem inPos_resolve (s : State) (p : Pixel) : (s.resolve p).inPos = s.inPos := rfl
@[simp] theorem out_resolve (s : State) (p : Pixel) : (s.resolve p).out = s.out := rfl
@[simp] theorem commands_resolve (s : State) (p : Pixel) :
    (s.resolve p).commands = s.commands := rfl
@[simp] theorem responses_resolve (s : State) (p : Pixel) :
    (s.resolve p).responses = s.responses := rfl
@[simp] theorem inBytes_resolve (s : State) (p : Pixel) :
    (s.resolve p).inBytes = s.inBytes := rfl

/-! ### countPixel -/

@[simp] theorem cache_countPixel (s : State) : (s.countPixel).cache = s.cache := rfl
@[simp] theorem px_countPixel (s : State) : (s.countPixel).px = s.px := rfl
@[simp] theorem run_countPixel (s : State) : (s.countPixel).run = s.run := rfl
@[simp] theorem remaining_countPixel (s : State) : (s.countPixel).remaining = s.remaining - 1 := rfl
@[simp] theorem phase_countPixel (s : State) : (s.countPixel).phase = s.phase := rfl
@[simp] theorem mode_countPixel (s : State) : (s.countPixel).mode = s.mode := rfl
@[simp] theorem cause_countPixel (s : State) : (s.countPixel).cause = s.cause := rfl
@[simp] theorem input_countPixel (s : State) : (s.countPixel).input = s.input := rfl
@[simp] theorem inPos_countPixel (s : State) : (s.countPixel).inPos = s.inPos := rfl
@[simp] theorem out_countPixel (s : State) : (s.countPixel).out = s.out := rfl
@[simp] theorem commands_countPixel (s : State) : (s.countPixel).commands = s.commands := rfl
@[simp] theorem responses_countPixel (s : State) : (s.countPixel).responses = s.responses := rfl
@[simp] theorem readSlot_countPixel (s : State) (j : SlotIndex) :
    (s.countPixel).readSlot j = s.readSlot j := rfl
@[simp] theorem inBytes_countPixel (s : State) :
    (s.countPixel).inBytes = s.inBytes := rfl

/-! ### emitPixel -/

@[simp] theorem cache_emitPixel (s : State) : (s.emitPixel).cache = s.cache := rfl
@[simp] theorem px_emitPixel (s : State) : (s.emitPixel).px = s.px := rfl
@[simp] theorem run_emitPixel (s : State) : (s.emitPixel).run = s.run := rfl
@[simp] theorem remaining_emitPixel (s : State) : (s.emitPixel).remaining = s.remaining - 1 := rfl
@[simp] theorem phase_emitPixel (s : State) :
    (s.emitPixel).phase = if s.remaining - 1 = 0 then .done else s.phase := rfl
@[simp] theorem mode_emitPixel (s : State) : (s.emitPixel).mode = s.mode := rfl
@[simp] theorem cause_emitPixel (s : State) : (s.emitPixel).cause = s.cause := rfl
@[simp] theorem input_emitPixel (s : State) : (s.emitPixel).input = s.input := rfl
@[simp] theorem inPos_emitPixel (s : State) : (s.emitPixel).inPos = s.inPos := rfl
@[simp] theorem out_emitPixel (s : State) : (s.emitPixel).out = s.out := rfl
@[simp] theorem commands_emitPixel (s : State) : (s.emitPixel).commands = s.commands := rfl
@[simp] theorem responses_emitPixel (s : State) :
    (s.emitPixel).responses = s.responses ++ [.pixel s.px] := rfl
@[simp] theorem readSlot_emitPixel (s : State) (j : SlotIndex) :
    (s.emitPixel).readSlot j = s.readSlot j := rfl
@[simp] theorem inBytes_emitPixel (s : State) :
    (s.emitPixel).inBytes = s.inBytes := rfl

/-! ### faultEntry -/

@[simp] theorem cache_faultEntry (s : State) (c : Cause) : (s.faultEntry c).cache = s.cache := rfl
@[simp] theorem px_faultEntry (s : State) (c : Cause) : (s.faultEntry c).px = s.px := rfl
@[simp] theorem run_faultEntry (s : State) (c : Cause) : (s.faultEntry c).run = s.run := rfl
@[simp] theorem remaining_faultEntry (s : State) (c : Cause) :
    (s.faultEntry c).remaining = s.remaining := rfl
@[simp] theorem phase_faultEntry (s : State) (c : Cause) : (s.faultEntry c).phase = .failed := rfl
@[simp] theorem mode_faultEntry (s : State) (c : Cause) : (s.faultEntry c).mode = s.mode := rfl
@[simp] theorem cause_faultEntry (s : State) (c : Cause) : (s.faultEntry c).cause = c := rfl
@[simp] theorem input_faultEntry (s : State) (c : Cause) : (s.faultEntry c).input = s.input := rfl
@[simp] theorem inPos_faultEntry (s : State) (c : Cause) :
    (s.faultEntry c).inPos = s.inBytes.length := rfl
@[simp] theorem out_faultEntry (s : State) (c : Cause) : (s.faultEntry c).out = s.out := rfl
@[simp] theorem commands_faultEntry (s : State) (c : Cause) :
    (s.faultEntry c).commands = s.commands := rfl
@[simp] theorem responses_faultEntry (s : State) (c : Cause) :
    (s.faultEntry c).responses = s.responses ++ [.fail c] := rfl
@[simp] theorem readSlot_faultEntry (s : State) (c : Cause) (j : SlotIndex) :
    (s.faultEntry c).readSlot j = s.readSlot j := rfl
@[simp] theorem inBytes_faultEntry (s : State) (c : Cause) :
    (s.faultEntry c).inBytes = s.inBytes := rfl

/-! ### emitRun -/

@[simp] theorem cache_emitRun (s : State) : (s.emitRun).cache = s.cache := rfl
@[simp] theorem px_emitRun (s : State) : (s.emitRun).px = s.px := rfl
@[simp] theorem run_emitRun (s : State) : (s.emitRun).run = 0 := rfl
@[simp] theorem remaining_emitRun (s : State) : (s.emitRun).remaining = s.remaining := rfl
@[simp] theorem phase_emitRun (s : State) : (s.emitRun).phase = s.phase := rfl
@[simp] theorem mode_emitRun (s : State) : (s.emitRun).mode = s.mode := rfl
@[simp] theorem cause_emitRun (s : State) : (s.emitRun).cause = s.cause := rfl
@[simp] theorem input_emitRun (s : State) : (s.emitRun).input = s.input := rfl
@[simp] theorem inPos_emitRun (s : State) : (s.emitRun).inPos = s.inPos := rfl
@[simp] theorem out_emitRun (s : State) :
    (s.emitRun).out = s.out ++ encodeStream (.run s.run.toNat) := rfl
@[simp] theorem commands_emitRun (s : State) : (s.emitRun).commands = s.commands := rfl
@[simp] theorem responses_emitRun (s : State) : (s.emitRun).responses = s.responses := rfl
@[simp] theorem readSlot_emitRun (s : State) (j : SlotIndex) :
    (s.emitRun).readSlot j = s.readSlot j := rfl
@[simp] theorem inBytes_emitRun (s : State) :
    (s.emitRun).inBytes = s.inBytes := rfl

/-! ### flushRun and finish: RUN and OUT change, and PHASE at the end of a pass -/

@[simp] theorem cache_flushRun (s : State) : s.flushRun.cache = s.cache := by
  unfold flushRun; split <;> rfl
@[simp] theorem px_flushRun (s : State) : s.flushRun.px = s.px := by
  unfold flushRun; split <;> rfl
@[simp] theorem remaining_flushRun (s : State) : s.flushRun.remaining = s.remaining := by
  unfold flushRun; split <;> rfl
@[simp] theorem phase_flushRun (s : State) : s.flushRun.phase = s.phase := by
  unfold flushRun; split <;> rfl
@[simp] theorem mode_flushRun (s : State) : s.flushRun.mode = s.mode := by
  unfold flushRun; split <;> rfl
@[simp] theorem cause_flushRun (s : State) : s.flushRun.cause = s.cause := by
  unfold flushRun; split <;> rfl
@[simp] theorem input_flushRun (s : State) : s.flushRun.input = s.input := by
  unfold flushRun; split <;> rfl
@[simp] theorem inPos_flushRun (s : State) : s.flushRun.inPos = s.inPos := by
  unfold flushRun; split <;> rfl
@[simp] theorem commands_flushRun (s : State) : s.flushRun.commands = s.commands := by
  unfold flushRun; split <;> rfl
@[simp] theorem responses_flushRun (s : State) : s.flushRun.responses = s.responses := by
  unfold flushRun; split <;> rfl
@[simp] theorem run_flushRun (s : State) : s.flushRun.run = 0 := by
  unfold flushRun; split
  · rfl
  · exact not_not.mp ‹_›
theorem out_flushRun (s : State) :
    s.flushRun.out = s.out ++ if s.run ≠ 0 then encodeStream (.run s.run.toNat) else [] := by
  unfold flushRun; split <;> simp
@[simp] theorem readSlot_flushRun (s : State) (j : SlotIndex) :
    s.flushRun.readSlot j = s.readSlot j := by unfold flushRun; split <;> rfl
@[simp] theorem select_flushRun (s : State) (px : Pixel) : s.flushRun.select px = s.select px := by
  simp [select]

@[simp] theorem cache_finish (s : State) : s.finish.cache = s.cache := by
  simp [finish]
@[simp] theorem px_finish (s : State) : s.finish.px = s.px := by
  simp [finish]
@[simp] theorem remaining_finish (s : State) : s.finish.remaining = s.remaining := by
  simp [finish]
@[simp] theorem mode_finish (s : State) : s.finish.mode = s.mode := by
  simp [finish]
@[simp] theorem cause_finish (s : State) : s.finish.cause = s.cause := by
  simp [finish]
@[simp] theorem input_finish (s : State) : s.finish.input = s.input := by
  simp [finish]
@[simp] theorem inPos_finish (s : State) : s.finish.inPos = s.inPos := by
  simp [finish]
@[simp] theorem commands_finish (s : State) : s.finish.commands = s.commands := by
  simp [finish]
@[simp] theorem responses_finish (s : State) : s.finish.responses = s.responses := by
  simp [finish]
@[simp] theorem inBytes_finish (s : State) : s.finish.inBytes = s.inBytes := by
  simp [finish, inBytes]
@[simp] theorem phase_finish (s : State) : s.finish.phase = .done := rfl
@[simp] theorem run_finish (s : State) : s.finish.run = 0 := by simp [finish]
theorem out_finish (s : State) :
    s.finish.out = s.flushRun.out ++ Config.endMarker := rfl
@[simp] theorem readSlot_finish (s : State) (j : SlotIndex) :
    s.finish.readSlot j = s.readSlot j := by simp [finish, readSlot]

/-! ### acceptPixel, and what no encode step touches -/

@[simp] theorem cache_acceptPixel (s : State) (px : Pixel) : (s.acceptPixel px).cache = s.cache := rfl
@[simp] theorem px_acceptPixel (s : State) (px : Pixel) : (s.acceptPixel px).px = px := rfl
@[simp] theorem run_acceptPixel (s : State) (px : Pixel) : (s.acceptPixel px).run = s.run := rfl
@[simp] theorem remaining_acceptPixel (s : State) (px : Pixel) : (s.acceptPixel px).remaining = s.remaining - 1 := rfl
@[simp] theorem phase_acceptPixel (s : State) (px : Pixel) : (s.acceptPixel px).phase = s.phase := rfl
@[simp] theorem mode_acceptPixel (s : State) (px : Pixel) : (s.acceptPixel px).mode = s.mode := rfl
@[simp] theorem cause_acceptPixel (s : State) (px : Pixel) : (s.acceptPixel px).cause = s.cause := rfl
@[simp] theorem input_acceptPixel (s : State) (px : Pixel) : (s.acceptPixel px).input = s.input := rfl
@[simp] theorem inPos_acceptPixel (s : State) (px : Pixel) : (s.acceptPixel px).inPos = s.inPos := rfl
@[simp] theorem out_acceptPixel (s : State) (px : Pixel) : (s.acceptPixel px).out = s.out := rfl
@[simp] theorem commands_acceptPixel (s : State) (px : Pixel) : (s.acceptPixel px).commands = s.commands := rfl
@[simp] theorem responses_acceptPixel (s : State) (px : Pixel) : (s.acceptPixel px).responses = s.responses := rfl
@[simp] theorem readSlot_acceptPixel (s : State) (px : Pixel) (j : SlotIndex) :
    (s.acceptPixel px).readSlot j = s.readSlot j := rfl

@[simp] theorem remaining_encodeBody (s : State) (px : Pixel) : (s.encodeBody px).remaining = s.remaining := by
  simp only [encodeBody, continueRun, encodeNew]
  split
  · split <;> rfl
  · simp
@[simp] theorem phase_encodeBody (s : State) (px : Pixel) : (s.encodeBody px).phase = s.phase := by
  simp only [encodeBody, continueRun, encodeNew]
  split
  · split <;> rfl
  · simp
@[simp] theorem mode_encodeBody (s : State) (px : Pixel) : (s.encodeBody px).mode = s.mode := by
  simp only [encodeBody, continueRun, encodeNew]
  split
  · split <;> rfl
  · simp
@[simp] theorem cause_encodeBody (s : State) (px : Pixel) : (s.encodeBody px).cause = s.cause := by
  simp only [encodeBody, continueRun, encodeNew]
  split
  · split <;> rfl
  · simp
@[simp] theorem input_encodeBody (s : State) (px : Pixel) : (s.encodeBody px).input = s.input := by
  simp only [encodeBody, continueRun, encodeNew]
  split
  · split <;> rfl
  · simp
@[simp] theorem inPos_encodeBody (s : State) (px : Pixel) : (s.encodeBody px).inPos = s.inPos := by
  simp only [encodeBody, continueRun, encodeNew]
  split
  · split <;> rfl
  · simp
@[simp] theorem commands_encodeBody (s : State) (px : Pixel) : (s.encodeBody px).commands = s.commands := by
  simp only [encodeBody, continueRun, encodeNew]
  split
  · split <;> rfl
  · simp
@[simp] theorem responses_encodeBody (s : State) (px : Pixel) : (s.encodeBody px).responses = s.responses := by
  simp only [encodeBody, continueRun, encodeNew]
  split
  · split <;> rfl
  · simp

@[simp] theorem remaining_encodeStep (s : State) (px : Pixel) :
    (s.encodeStep px).remaining = s.remaining - 1 := by
  simp only [encodeStep]; split <;> simp
@[simp] theorem mode_encodeStep (s : State) (px : Pixel) :
    (s.encodeStep px).mode = s.mode := by
  simp only [encodeStep]; split <;> simp
@[simp] theorem cause_encodeStep (s : State) (px : Pixel) :
    (s.encodeStep px).cause = s.cause := by
  simp only [encodeStep]; split <;> simp
@[simp] theorem input_encodeStep (s : State) (px : Pixel) :
    (s.encodeStep px).input = s.input := by
  simp only [encodeStep]; split <;> simp
@[simp] theorem inPos_encodeStep (s : State) (px : Pixel) :
    (s.encodeStep px).inPos = s.inPos := by
  simp only [encodeStep]; split <;> simp
@[simp] theorem commands_encodeStep (s : State) (px : Pixel) :
    (s.encodeStep px).commands = s.commands := by
  simp only [encodeStep]; split <;> simp
@[simp] theorem responses_encodeStep (s : State) (px : Pixel) :
    (s.encodeStep px).responses = s.responses := by
  simp only [encodeStep]; split <;> simp
@[simp] theorem inBytes_encodeStep (s : State) (px : Pixel) :
    (s.encodeStep px).inBytes = s.inBytes := by simp [inBytes]
@[simp] theorem px_encodeStep (s : State) (px : Pixel) : (s.encodeStep px).px = px := by
  simp only [encodeStep]; split <;> simp
theorem phase_encodeStep (s : State) (px : Pixel) :
    (s.encodeStep px).phase = if s.remaining - 1 = 0 then .done else s.phase := by
  simp only [encodeStep, remaining_acceptPixel, remaining_encodeBody]; split <;> simp

end Sys2Proof.Machine.State
end

