-- ==== Sys2Proof/Laws/Cache.lean ====
section
/-! SUPPORT. The prediction cache: read after write, the pass-start contents, the index generator. -/

namespace Sys2Proof.Machine

/-- A slot read after a slot write (R113, R114). -/
@[simp] theorem State.readSlot_writeSlot (s : State) (i j : SlotIndex) (p : Pixel) :
    (s.writeSlot i p).readSlot j = if j = i then p else s.readSlot j := by
  simp only [State.readSlot, State.writeSlot, Vector.getElem_set, BitVec.toNat_inj]
  exact if_congr eq_comm rfl rfl

/-- A slot read after the cache update (R113, R115). -/
@[simp] theorem State.readSlot_cacheUpdate (s : State) (j : SlotIndex) (p : Pixel) :
    (s.cacheUpdate p).readSlot j = if j = slotHash p then p else s.readSlot j :=
  s.readSlot_writeSlot _ _ _

/-- A slot read after a resolved pixel (R139). -/
@[simp] theorem State.readSlot_resolve (s : State) (j : SlotIndex) (p : Pixel) :
    (s.resolve p).readSlot j = if j = slotHash p then p else s.readSlot j :=
  State.readSlot_cacheUpdate _ _ _

/-- Every slot at pass start and at reset (R36, R37). -/
theorem State.readSlot_of_initCache {s : State} (h : s.cache = initCache) (j : SlotIndex) :
    s.readSlot j = Config.initSlot := by
  simp [State.readSlot, h, initCache]

@[simp] theorem State.readSlot_startPass (s : State) (n : BitVec 64) (m : Mode) (j : SlotIndex) :
    (s.startPass n m).readSlot j = Config.initSlot :=
  State.readSlot_of_initCache rfl j

/-- Two states with the same slots have the same cache. -/
theorem State.cache_ext {s t : State} (h : ∀ j, s.readSlot j = t.readSlot j) : s.cache = t.cache := by
  ext1 k hk
  have := h (BitVec.ofNat 6 k)
  simpa [State.readSlot, Nat.mod_eq_of_lt hk] using this

/-- The same cache has the same slots. -/
theorem State.readSlot_congr {s t : State} (h : s.cache = t.cache) (j : SlotIndex) :
    s.readSlot j = t.readSlot j := by
  simp [State.readSlot, h]

/-- The sum of the index generator is at most 6630 (R110). -/
theorem hashSum_le (p : Pixel) : hashSum p ≤ 6630 := by
  have := p.r.isLt; have := p.g.isLt; have := p.b.isLt; have := p.a.isLt
  simp only [hashSum, Config.hashMulR, Config.hashMulG, Config.hashMulB, Config.hashMulA]
  omega

/-- The index is the sum modulo 64, as a number. -/
theorem toNat_slotHash (p : Pixel) : (slotHash p).toNat = hashSum p % 64 := by
  simp [slotHash, Config.cacheSlots]

end Sys2Proof.Machine
end

