-- ==== Sys2Proof/Laws/Decode.lean ====
section
/-! SUPPORT. What the opcode decoder can answer, and the lengths of encodings. -/

namespace Sys2Proof

/-- A pixel comes back from its 32-bit word (R11). -/
@[simp] theorem Pixel.unpack_pack (p : Pixel) : Pixel.unpack p.pack = p := by
  obtain ⟨r, g, b, a⟩ := p
  simp only [Pixel.unpack, Pixel.pack, Pixel.mk.injEq]
  refine ⟨?_, ?_, ?_, ?_⟩
  all_goals
    apply BitVec.eq_of_getLsbD_eq
    intro k hk
    simp only [BitVec.getLsbD_extractLsb', BitVec.getLsbD_append, hk, decide_true, Bool.true_and]
    repeat' split
    all_goals first | omega | rfl | (congr 1; omega)

/-- A field with a bias holds the biased number where it fits (R83, R84). -/
theorem toNat_biasedField {n : Nat} {bias x : Int} (h0 : 0 ≤ x + bias) (h1 : x + bias < 2 ^ n) :
    ((biasedField n bias x).toNat : Int) = x + bias := by
  simp only [biasedField, BitVec.toNat_ofInt]
  rw [Int.emod_eq_of_lt h0 (by simpa using h1)]
  omega

/-- The first byte decides what is left to read: with enough payload the decoder answers an opcode. -/
theorem decodeOpcode_total (b0 : Byte) (payload : List Byte) (h : payloadLength b0 ≤ payload.length) :
    ∃ i, decodeOpcode (b0 :: payload) = .ok (i, (classify b0).length) := by
  unfold payloadLength at h
  cases hc : classify b0 <;> simp only [hc, OpKind.length] at h <;> simp only [decodeOpcode, hc, OpKind.length]
  case index => exact ⟨_, rfl⟩
  case diff => exact ⟨_, rfl⟩
  case run => exact ⟨_, rfl⟩
  case luma =>
    match payload, h with
    | _ :: _, _ => exact ⟨_, rfl⟩
  case rgb =>
    match payload, h with
    | _ :: _ :: _ :: _, _ => exact ⟨_, rfl⟩
  case rgba =>
    match payload, h with
    | _ :: _ :: _ :: _ :: _, _ => exact ⟨_, rfl⟩

/-- With too little payload the decoder rejects the bytes as truncated. -/
theorem decodeOpcode_short (b0 : Byte) (payload : List Byte) (h : payload.length < payloadLength b0) :
    decodeOpcode (b0 :: payload) = .error .truncated := by
  unfold payloadLength at h
  cases hc : classify b0 <;> simp only [hc, OpKind.length] at h <;> simp only [decodeOpcode, hc]
  case index => omega
  case diff => omega
  case run => omega
  case luma =>
    match payload, h with
    | [], _ => rfl
  case rgb =>
    match payload, h with
    | [], _ => rfl
    | [_], _ => rfl
    | [_, _], _ => rfl
  case rgba =>
    match payload, h with
    | [], _ => rfl
    | [_], _ => rfl
    | [_, _], _ => rfl
    | [_, _, _], _ => rfl

/-- Bytes past the opcode do not matter. -/
theorem decodeOpcode_take (b0 : Byte) (payload : List Byte) :
    decodeOpcode (b0 :: payload.take (payloadLength b0)) = decodeOpcode (b0 :: payload) := by
  unfold payloadLength
  cases hc : classify b0 <;> simp only [decodeOpcode, hc, OpKind.length]
  case luma => rcases payload with _ | ⟨_, _⟩ <;> rfl
  case rgb => rcases payload with _ | ⟨_, _ | ⟨_, _ | ⟨_, _⟩⟩⟩ <;> rfl
  case rgba => rcases payload with _ | ⟨_, _ | ⟨_, _ | ⟨_, _ | ⟨_, _⟩⟩⟩⟩ <;> rfl

/-- One inversion of the decoder: which opcode it answers, from which bytes. -/
theorem decodeOpcode_cases {bytes : List Byte} {i : Instr} {k : Nat}
    (h : decodeOpcode bytes = .ok (i, k)) :
    ∃ b0 payload, bytes = b0 :: payload ∧ k = (classify b0).length ∧
      ((classify b0 = .index ∧ i = indexFields b0) ∨ (classify b0 = .diff ∧ i = diffFields b0) ∨
       (classify b0 = .run ∧ i = runFields b0) ∨
       (∃ b1 rest, payload = b1 :: rest ∧ classify b0 = .luma ∧ i = lumaFields b0 b1) ∨
       (∃ r g b rest, payload = r :: g :: b :: rest ∧ classify b0 = .rgb ∧ i = .rgb r g b) ∨
       (∃ r g b a rest, payload = r :: g :: b :: a :: rest ∧ classify b0 = .rgba ∧
         i = .rgba r g b a)) := by
  rcases bytes with _ | ⟨b0, payload⟩
  · simp [decodeOpcode] at h
  refine ⟨b0, payload, rfl, ?_⟩
  cases hc : classify b0 <;> simp only [decodeOpcode, hc] at h
  case index => cases h; simp [OpKind.length]
  case diff => cases h; simp [OpKind.length]
  case run => cases h; simp [OpKind.length]
  case luma =>
    rcases payload with _ | ⟨b1, rest⟩
    · cases h
    · cases h; simp [OpKind.length]
  case rgb =>
    rcases payload with _ | ⟨_, _ | ⟨_, _ | ⟨_, _⟩⟩⟩ <;> cases h
    simp [OpKind.length]
  case rgba =>
    rcases payload with _ | ⟨_, _ | ⟨_, _ | ⟨_, _ | ⟨_, _⟩⟩⟩⟩ <;> cases h
    simp [OpKind.length]

/-- The decoder answers stream opcodes only. -/
theorem isOpcode_of_decodeOpcode {bytes : List Byte} {i : Instr} {k : Nat}
    (h : decodeOpcode bytes = .ok (i, k)) : i.isOpcode = true := by
  obtain ⟨b0, p, -, -, h | h | h | ⟨_, _, -, -, h⟩ | ⟨_, _, _, _, -, -, h⟩ | ⟨_, _, _, _, _, -, -, h⟩⟩ :=
    decodeOpcode_cases h
  · rw [h.2]; rfl
  · rw [h.2]; rfl
  · rw [h.2]; rfl
  · rw [h]; rfl
  · rw [h]; rfl
  · rw [h]; rfl

/-- The length the decoder answers is the instruction's. -/
theorem byteLength_of_decodeOpcode {bytes : List Byte} {i : Instr} {k : Nat}
    (h : decodeOpcode bytes = .ok (i, k)) : k = i.byteLength := by
  obtain ⟨b0, p, -, hk, h | h | h | ⟨_, _, -, hc, h⟩ | ⟨_, _, _, _, -, hc, h⟩ | ⟨_, _, _, _, _, -, hc, h⟩⟩ :=
    decodeOpcode_cases h
  · rw [hk, h.1, h.2]; rfl
  · rw [hk, h.1, h.2]; rfl
  · rw [hk, h.1, h.2]; rfl
  · rw [hk, hc, h]; rfl
  · rw [hk, hc, h]; rfl
  · rw [hk, hc, h]; rfl

/-- An answer's bytes were there. -/
theorem length_of_decodeOpcode {b0 : Byte} {payload : List Byte} {i : Instr} {k : Nat}
    (h : decodeOpcode (b0 :: payload) = .ok (i, k)) : payloadLength b0 ≤ payload.length := by
  by_contra hlt
  rw [decodeOpcode_short b0 payload (by omega)] at h
  cases h

end Sys2Proof
end

