-- ==== Sys2Proof/Laws/Streams.lean ====
section
/-! SUPPORT. ReadByte and opcode fetch said once: what they answer from the bytes at IN_POS. -/

namespace Sys2Proof.Machine.State

theorem advance_advance (s : State) (j k : Nat) : (s.advance j).advance k = s.advance (j + k) := by
  simp [advance, Nat.add_assoc]

/-- `ReadByte` on a byte that is there (R57). -/
theorem readByte_cons {s : State} {v : Byte} {rest : List Byte}
    (h : s.inBytes.drop s.inPos = v :: rest) :
    s.readByte = some (v, s.advance 1) := by
  have hv : s.inBytes[s.inPos]? = some v := by
    rw [← List.head?_drop, h]; rfl
  simp [readByte, hv]

/-- `ReadByte` at the end of IN (R57). -/
theorem readByte_nil {s : State} (h : s.inBytes.drop s.inPos = []) : s.readByte = none := by
  have hv : s.inBytes[s.inPos]? = none := by
    rw [← List.head?_drop, h]; rfl
  simp [readByte, hv]

/-- `k` reads take the next `k` bytes, or fault if they are not all there (R57). -/
theorem readBytes_eq (k : Nat) (s : State) :
    readBytes k s =
      if k ≤ (s.inBytes.drop s.inPos).length then
        some ((s.inBytes.drop s.inPos).take k, s.advance k)
      else none := by
  induction k generalizing s with
  | zero => simp [readBytes, advance]
  | succ k ih =>
    cases hd : s.inBytes.drop s.inPos with
    | nil => simp [readBytes, readByte_nil hd]
    | cons v rest =>
      have hrest : s.inBytes.drop (s.inPos + 1) = rest := by
        rw [← List.drop_drop, hd]; rfl
      simp only [readBytes, readByte_cons hd, ih, inBytes_advance, inPos_advance, hrest, List.length_cons,
        Nat.add_le_add_iff_right]
      by_cases hk : k ≤ rest.length <;> simp [hk, advance_advance, Nat.add_comm 1]

/-- Opcode fetch is the opcode decoder on the bytes at IN_POS, with IN_POS moved past the opcode (R130,
R132). -/
theorem fetchOpcode_eq (s : State) :
    s.fetchOpcode =
      match decodeOpcode (s.inBytes.drop s.inPos) with
      | .ok (i, k) => some (i, s.advance k)
      | .error _ => none := by
  cases hd : s.inBytes.drop s.inPos with
  | nil => simp [fetchOpcode, readByte_nil hd, decodeOpcode]
  | cons b0 payload =>
    have hrest : s.inBytes.drop (s.inPos + 1) = payload := by
      rw [← List.drop_drop, hd]; rfl
    simp only [fetchOpcode, readByte_cons hd, readBytes_eq, inBytes_advance, inPos_advance, hrest, advance_advance]
    by_cases hl : payloadLength b0 ≤ payload.length
    · obtain ⟨i, hi⟩ := decodeOpcode_total b0 payload hl
      have hlen : 1 + payloadLength b0 = (classify b0).length := by
        unfold payloadLength; cases classify b0 <;> rfl
      simp [hl, decodeOpcode_take, hi, hlen]
    · simp [hl, decodeOpcode_short b0 payload (by omega)]

end Sys2Proof.Machine.State
end

