-- ==== Sys2Proof/Laws/Exec.lean ====
section
/-! SUPPORT. The meaning of each instruction as one equation per mode and phase, which later proofs
cite instead of unfolding a meaning. -/

namespace Sys2Proof.Machine

/-! ## The opcodes in a decode pass -/

theorem exec_index_dec {s : State} (h : s.mode = .dec) (i : SlotIndex) :
    exec (.index i) s = .next (s.resolve (s.readSlot i)).emitPixel := by
  simp only [exec, execIndex, h]

theorem exec_diff_dec {s : State} (h : s.mode = .dec) (dr dg db : Int) :
    exec (.diff dr dg db) s = .next (s.resolve (addDeltas s.px dr dg db)).emitPixel := by
  simp only [exec, execDiff, h]

theorem exec_luma_dec {s : State} (h : s.mode = .dec) (dg x y : Int) :
    exec (.luma dg x y) s = .next (s.resolve (addDeltas s.px (dg + x) dg (dg + y))).emitPixel := by
  simp only [exec, execLuma, h]

theorem exec_run_dec {s : State} (h : s.mode = .dec) (len : Nat) :
    exec (.run len) s = .next (s.withRun (BitVec.ofNat 6 (len - 1))).emitPixel := by
  simp only [exec, execRun, h]

theorem exec_rgb_dec {s : State} (h : s.mode = .dec) (r g b : Byte) :
    exec (.rgb r g b) s = .next (s.resolve ⟨r, g, b, s.px.a⟩).emitPixel := by
  simp only [exec, execRgb, h]

theorem exec_rgba_dec {s : State} (h : s.mode = .dec) (r g b a : Byte) :
    exec (.rgba r g b a) s = .next (s.resolve ⟨r, g, b, a⟩).emitPixel := by
  simp only [exec, execRgba, h]

theorem exec_endMarker_dec {s : State} (h : s.mode = .dec) :
    exec .endMarker s = .next (indexWhileActive markerSlots s) := by
  simp only [exec, execEndMarker, h]

/-- What an opcode does in a decode pass: it resolves one pixel and emits it, or it queues repeats and
emits PX (R133 to R139). -/
theorem exec_opcode_cases {i : Instr} (h : i.isOpcode = true) {s : State} (hm : s.mode = .dec) :
    ((∀ len, i ≠ .run len) ∧ ∃ p, exec i s = .next (s.resolve p).emitPixel) ∨
    (∃ len, i = .run len ∧
      exec i s = .next (s.withRun (BitVec.ofNat 6 (len - 1))).emitPixel) := by
  cases i <;> simp only [Instr.isOpcode, Bool.false_eq_true] at h
  case index => exact .inl ⟨nofun, _, exec_index_dec hm _⟩
  case diff => exact .inl ⟨nofun, _, exec_diff_dec hm _ _ _⟩
  case luma => exact .inl ⟨nofun, _, exec_luma_dec hm _ _ _⟩
  case rgb => exact .inl ⟨nofun, _, exec_rgb_dec hm _ _ _⟩
  case rgba => exact .inl ⟨nofun, _, exec_rgba_dec hm _ _ _ _⟩
  case run len => exact .inr ⟨len, rfl, exec_run_dec hm len⟩

/-- The budget counts down by one, and DONE is entered on the last pixel (R130, R140, R183). -/
theorem State.CountsPixel.of_eq {s t : State} (hr : s.remaining ≠ 0)
    (h1 : t.remaining = s.remaining - 1)
    (h2 : t.phase = if s.remaining - 1 = 0 then .done else .active) : s.CountsPixel t := by
  have hne : s.remaining.toNat ≠ 0 := fun h => hr (BitVec.eq_of_toNat_eq h)
  have hlt := s.remaining.isLt
  refine ⟨?_, ?_⟩
  · rw [h1, BitVec.toNat_sub]
    simp only [BitVec.ofNat_eq_ofNat, BitVec.toNat_ofNat]
    omega
  · rw [h2]
    refine if_congr ⟨fun h => ?_, fun h => by rw [h]; rfl⟩ rfl rfl
    simpa using congrArg (· + 1#64) h

/-- A resolved and emitted pixel (R130, R139, R140). -/
theorem State.Resolves.of_resolve {s : State} (h : s.Decoding) (p : Pixel) :
    s.Resolves (s.resolve p).emitPixel p := by
  obtain ⟨-, hp, hr⟩ := h
  refine ⟨by simp, by simp, .of_eq hr (by simp) (by simp [hp]), ?_⟩
  simp [SameRest]

/-- A repeat of PX (R131, R138). -/
theorem State.Repeats.of_run {s : State} (h : s.Decoding) (r : BitVec 6) :
    s.Repeats (s.withRun r).emitPixel r.toNat := by
  obtain ⟨-, hp, hr⟩ := h
  refine ⟨by simp, by simp, by simp, .of_eq hr (by simp) (by simp [hp]), ?_⟩
  simp [SameRest]

/-! ## The opcodes in an encode pass -/

/-- An opcode, or END, in an encode pass is its emitter (R175 to R180, R184). -/
theorem exec_emit {i : Instr} (h : i.isOpcode = true ∨ i = .endMarker) {s : State}
    (hm : s.mode = .enc) : exec i s = .next (s.emit i) := by
  rcases h with h | rfl
  · cases i <;> simp only [Instr.isOpcode, Bool.false_eq_true] at h
    case index => simp only [exec, execIndex, hm]
    case diff => simp only [exec, execDiff, hm]
    case luma => simp only [exec, execLuma, hm]
    case run => simp only [exec, execRun, hm]
    case rgb => simp only [exec, execRgb, hm]
    case rgba => simp only [exec, execRgba, hm]
  · simp only [exec, execEndMarker, hm]

/-! ## The commands -/

theorem exec_startDecode (s : State) (n : BitVec 64) (stream : List Byte) :
    exec (.startDecode n stream) s =
      .next ((s.startDecodePass n stream).respond .ok) := rfl

theorem exec_startEncode_zero (s : State) :
    exec (.startEncode 0) s =
      .next ((s.startEncodePass 0).finish.respond .ok) := rfl

theorem exec_startEncode_pos (s : State) {n : BitVec 64} (h : n ≠ 0) :
    exec (.startEncode n) s =
      .next ((s.startEncodePass n).respond .ok) := by
  simp only [exec, execStartEncode, if_neg h]

theorem exec_decodeNext_active {s : State} (hm : s.mode = .dec) (hp : s.phase = .active) :
    exec .decodeNext s = decodeStep s := by
  simp only [exec, execDecodeNext, hm, hp]

theorem exec_decodeNext_ended {s : State} (hm : s.mode = .dec)
    (hp : s.phase = .done ∨ s.phase = .failed) :
    exec .decodeNext s = .next (s.respond .endOfPass) := by
  rcases hp with hp | hp <;> simp only [exec, execDecodeNext, hm, hp]

theorem exec_decodeNext_rejected {s : State} (h : s.mode = .enc ∨ s.phase = .idle) :
    exec .decodeNext s = .next (s.respond .rejected) := by
  simp only [exec, execDecodeNext]
  split <;> simp_all

theorem exec_encodePixel_active {s : State} (hm : s.mode = .enc) (hp : s.phase = .active) (p : Pixel) :
    exec (.encodePixel p) s = .next ((s.encodeStep p).respond .ok) := by
  simp only [exec, execEncodePixel, hm, hp]

theorem exec_encodePixel_done {s : State} (hm : s.mode = .enc) (hp : s.phase = .done) (p : Pixel) :
    exec (.encodePixel p) s = .next (s.respond .ignored) := by
  simp only [exec, execEncodePixel, hm, hp]

theorem exec_encodePixel_rejected {s : State} (h : s.mode = .dec ∨ s.phase = .idle ∨ s.phase = .failed)
    (p : Pixel) : exec (.encodePixel p) s = .next (s.respond .rejected) := by
  simp only [exec, execEncodePixel]
  split <;> simp_all

theorem exec_encodeFinish_active {s : State} (hm : s.mode = .enc) (hp : s.phase = .active) :
    exec .encodeFinish s = .next (s.finish.respond .ok) := by
  simp only [exec, execEncodeFinish, hm, hp]

theorem exec_encodeFinish_done {s : State} (hm : s.mode = .enc) (hp : s.phase = .done) :
    exec .encodeFinish s = .next (s.respond .ok) := by
  simp only [exec, execEncodeFinish, hm, hp]

theorem exec_encodeFinish_rejected {s : State}
    (h : s.mode = .dec ∨ s.phase = .idle ∨ s.phase = .failed) :
    exec .encodeFinish s = .next (s.respond .rejected) := by
  simp only [exec, execEncodeFinish]
  split <;> simp_all

theorem exec_readReg (s : State) (k : Byte) :
    exec (.readReg k) s = .next (s.respond (.value (s.statusReg k))) := rfl

theorem exec_reservedCommand (s : State) (code : Byte) :
    exec (.reservedCommand code) s = .next (s.respond .rejected) := rfl

/-! ## The decoder's step -/

/-- The decoder's step, from the bytes at IN_POS (R130). -/
theorem decodeStep_eq (s : State) :
    decodeStep s =
      if s.run ≠ 0 then .next (s.withRun (s.run - 1)).emitPixel
      else
        match decodeOpcode (s.inBytes.drop s.inPos) with
        | .ok (i, k) => execOpcode i (s.advance k)
        | .error _ => .next (s.faultEntry .truncatedInput) := by
  unfold decodeStep
  split
  · rfl
  · rw [State.fetchOpcode_eq]
    cases decodeOpcode (s.inBytes.drop s.inPos) <;> rfl

/-- The inner dispatch is exec on the six opcodes. -/
theorem execOpcode_eq_exec {i : Instr} (h : i.isOpcode = true) (s : State) :
    execOpcode i s = exec i s := by
  cases i <;> first | rfl | simp [Instr.isOpcode] at h

theorem decodeStep_inRun {s : State} (h : s.run ≠ 0) :
    decodeStep s = .next (s.withRun (s.run - 1)).emitPixel := by
  rw [decodeStep_eq, if_pos h]

theorem decodeStep_opcode {s : State} (h : s.run = 0) {i : Instr} {k : Nat}
    (hd : decodeOpcode (s.inBytes.drop s.inPos) = .ok (i, k)) :
    decodeStep s = exec i (s.advance k) := by
  rw [decodeStep_eq, if_neg (not_not.mpr h), hd]
  exact execOpcode_eq_exec (isOpcode_of_decodeOpcode hd) _

theorem decodeStep_truncated {s : State} (h : s.run = 0)
    (hd : decodeOpcode (s.inBytes.drop s.inPos) = .error .truncated) :
    decodeStep s = .next (s.faultEntry .truncatedInput) := by
  rw [decodeStep_eq, if_neg (not_not.mpr h), hd]

/-- The bytes at IN_POS are an opcode or are truncated. -/
theorem decodeOpcode_dichotomy (bytes : List Byte) :
    (∃ i k, decodeOpcode bytes = .ok (i, k)) ∨ decodeOpcode bytes = .error .truncated := by
  cases h : decodeOpcode bytes with
  | ok a => exact .inl ⟨a.1, a.2, rfl⟩
  | error e => cases e; exact .inr rfl

end Sys2Proof.Machine
end

