-- ==== Sys2Proof/Laws/Step.lean ====
section
/-! SUPPORT. The step, runs of many steps, and the one induction over reachable states. -/

namespace Sys2Proof.Machine

/-- The block rests while no command is issued. -/
theorem step_of_no_command {s : State} (h : s.commands = []) : step s = .next s := by
  simp [step, State.takeCommand, h]

/-! ## Runs -/

theorem stepN_zero (s : State) : stepN 0 s = .next s := rfl

theorem stepN_succ {s t : State} (h : step s = .next t) (k : Nat) : stepN (k + 1) s = stepN k t := by
  simp [stepN, h]

/-- Runs put end to end. -/
theorem stepN_add {j : Nat} {s t : State} (h : stepN j s = .next t) (k : Nat) :
    stepN (j + k) s = stepN k t := by
  induction j generalizing s with
  | zero => cases h; simp
  | succ j ih =>
    rw [Nat.succ_add]
    cases hs : step s with
    | next u =>
      rw [stepN_succ hs] at h ⊢
      exact ih h
    | fault f => simp [stepN, hs] at h
    | refused r => simp [stepN, hs] at h

/-- `stepN` is the host's own run of the machine. -/
theorem stepN_eq_core_run (k : Nat) (s : State) : stepN k s = Sys2Proof.core.run k s := by
  induction k generalizing s with
  | zero => rfl
  | succ k ih =>
    have hcore : Sys2Proof.core.step s = step s := rfl
    cases hs : step s with
    | next t => rw [stepN_succ hs, ih t]; simp only [Host.Core.run, hcore, hs]; rfl
    | fault f => simp only [stepN, Host.Core.run, hcore, hs]; rfl
    | refused r => simp only [stepN, Host.Core.run, hcore, hs]; rfl

/-- A property that holds at reset, and that issuing commands and steps keep, holds of every reachable
state. -/
theorem Reachable.induct {P : State → Prop} (hreset : P State.reset)
    (hissue : ∀ s cs, P s → P (s.withCommands (s.commands ++ cs)))
    (hstep : ∀ s t, P s → Machine.step s = .next t → P t) {s : State} (h : Reachable s) : P s := by
  induction h with
  | reset => exact hreset
  | issue s cs _ ih => exact hissue s cs ih
  | step s t _ ht ih => exact hstep s t ih ht

/-- Issuing commands keeps the invariant. -/
theorem State.Inv.issue {s : State} (h : s.Inv) (cs : List Request) :
    (s.withCommands cs).Inv := by
  cases h; constructor <;> assumption

end Sys2Proof.Machine
end

