-- ==== Sys2Proof/Laws/Effect.lean ====
section
/-! SUPPORT. What a command can do, said once: the inversion that every claim about all steps cites. -/

namespace Sys2Proof

/-- A RUN the decoder reads has a length in 1..62 (R85). -/
theorem run_bounds_of_decodeOpcode {bytes : List Byte} {len k : Nat}
    (h : decodeOpcode bytes = .ok (.run len, k)) : 1 ≤ len ∧ len ≤ 62 := by
  obtain ⟨b0, p, -, -, h | h | h | ⟨_, _, -, -, h⟩ | ⟨_, _, _, _, -, -, h⟩ | ⟨_, _, _, _, _, -, -, h⟩⟩ :=
    decodeOpcode_cases h
  · cases h.2
  · cases h.2
  · have key : ∀ b : Byte, classify b = .run → (b.extractLsb' 0 6).toNat ≤ 61 := by decide +kernel
    have := key b0 h.1
    cases h.2
    omega
  · cases h
  · cases h
  · cases h

namespace Machine

/-- The effect of one command on a state from which it is already taken off the port. -/
inductive CommandEffect (s : State) (c : Request) : State → Prop where
  /-- START_DECODE (R221). -/
  | startDecode (hc : c.code = 0x01) :
      CommandEffect s c ((s.startDecodePass c.count c.stream).respond .ok)
  /-- START_ENCODE with budget (R222). -/
  | startEncode (hc : c.code = 0x02) (hn : c.count ≠ 0) :
      CommandEffect s c ((s.startEncodePass c.count).respond .ok)
  /-- START_ENCODE with a budget of 0 (R222). -/
  | startEncodeZero (hc : c.code = 0x02) (hn : c.count = 0) :
      CommandEffect s c ((s.startEncodePass 0).finish.respond .ok)
  /-- DECODE_NEXT outputs a queued repeat (R131). -/
  | pullQueued (hc : c.code = 0x03) (hm : s.mode = .dec) (hp : s.phase = .active) (hr : s.run ≠ 0) :
      CommandEffect s c (s.withRun (s.run - 1)).emitPixel
  /-- DECODE_NEXT reads an opcode of `k` bytes that resolves `p` (R133 to R137). -/
  | pullResolved (hc : c.code = 0x03) (hm : s.mode = .dec) (hp : s.phase = .active) (hr : s.run = 0)
      (i : Instr) (k : Nat) (hd : decodeOpcode (s.inBytes.drop s.inPos) = .ok (i, k))
      (hi : ∀ len, i ≠ .run len) (p : Pixel) :
      CommandEffect s c ((s.advance k).resolve p).emitPixel
  /-- DECODE_NEXT reads a RUN of `len` (R138). -/
  | pullRun (hc : c.code = 0x03) (hm : s.mode = .dec) (hp : s.phase = .active) (hr : s.run = 0)
      (len k : Nat) (hd : decodeOpcode (s.inBytes.drop s.inPos) = .ok (.run len, k)) :
      CommandEffect s c ((s.advance k).withRun (BitVec.ofNat 6 (len - 1))).emitPixel
  /-- DECODE_NEXT faults (R254). -/
  | pullFault (hc : c.code = 0x03) (hm : s.mode = .dec) (hp : s.phase = .active) (hr : s.run = 0)
      (hd : decodeOpcode (s.inBytes.drop s.inPos) = .error .truncated) :
      CommandEffect s c (s.faultEntry .truncatedInput)
  /-- ENCODE_PIXEL runs an encode step (R170). -/
  | pixel (hc : c.code = 0x04) (hm : s.mode = .enc) (hp : s.phase = .active) :
      CommandEffect s c ((s.encodeStep (Pixel.unpack c.pixel)).respond .ok)
  /-- ENCODE_FINISH finishes (R184). -/
  | finish (hc : c.code = 0x05) (hm : s.mode = .enc) (hp : s.phase = .active) :
      CommandEffect s c (s.finish.respond .ok)
  /-- A command that only answers (R223 to R227): it outputs no pixel, fails nothing, and accepts no
  pixel. -/
  | answer (x : Response) (h1 : c.code ≠ 0x01) (h2 : c.code ≠ 0x02)
      (hpix : ∀ p, x ≠ .pixel p) (hfail : ∀ f, x ≠ .fail f) (hok : c.code = 0x04 → x ≠ .ok) :
      CommandEffect s c (s.respond x)

/-- If a command answers next `t`, then `t` is one of these effects. -/
theorem commandEffect_of_exec {s t : State} {c : Request}
    (h : exec (decodeCommand c) s = .next t) : CommandEffect s c t := by
  unfold decodeCommand at h
  split at h
  next hc => rw [exec_startDecode] at h; cases h; exact .startDecode hc
  next h1 =>
  split at h
  next hc =>
    by_cases hn : c.count = 0
    · rw [hn, exec_startEncode_zero] at h; cases h; exact .startEncodeZero hc hn
    · rw [exec_startEncode_pos s hn] at h; cases h; exact .startEncode hc hn
  next h2 =>
  split at h
  next hc =>
    rcases hm : s.mode with _ | _
    · rcases hp : s.phase with _ | _ | _ | _
      · rw [exec_decodeNext_rejected (.inr hp)] at h; cases h
        exact .answer _ h1 h2 (by simp) (by simp) (by simp)
      · rw [exec_decodeNext_active hm hp] at h
        by_cases hr : s.run = 0
        · rcases decodeOpcode_dichotomy (s.inBytes.drop s.inPos) with ⟨i, k, hd⟩ | hd
          · rw [decodeStep_opcode hr hd] at h
            rcases exec_opcode_cases (isOpcode_of_decodeOpcode hd)
              (s := s.advance k) hm with ⟨hi, p, hx⟩ | ⟨len, rfl, hx⟩
            · rw [hx] at h; cases h; exact .pullResolved hc hm hp hr i k hd hi p
            · rw [hx] at h; cases h; exact .pullRun hc hm hp hr len k hd
          · rw [decodeStep_truncated hr hd] at h; cases h; exact .pullFault hc hm hp hr hd
        · rw [decodeStep_inRun hr] at h; cases h; exact .pullQueued hc hm hp hr
      · rw [exec_decodeNext_ended hm (.inl hp)] at h; cases h
        exact .answer _ h1 h2 (by simp) (by simp) (by simp)
      · rw [exec_decodeNext_ended hm (.inr hp)] at h; cases h
        exact .answer _ h1 h2 (by simp) (by simp) (by simp)
    · rw [exec_decodeNext_rejected (.inl hm)] at h; cases h
      exact .answer _ h1 h2 (by simp) (by simp) (by simp)
  next h3 =>
  split at h
  next hc =>
    rcases hm : s.mode with _ | _
    · rw [exec_encodePixel_rejected (.inl hm)] at h; cases h
      exact .answer _ h1 h2 (by simp) (by simp) (by simp)
    · rcases hp : s.phase with _ | _ | _ | _
      · rw [exec_encodePixel_rejected (.inr (.inl hp))] at h; cases h
        exact .answer _ h1 h2 (by simp) (by simp) (by simp)
      · rw [exec_encodePixel_active hm hp] at h; cases h; exact .pixel hc hm hp
      · rw [exec_encodePixel_done hm hp] at h; cases h
        exact .answer _ h1 h2 (by simp) (by simp) (by simp)
      · rw [exec_encodePixel_rejected (.inr (.inr hp))] at h; cases h
        exact .answer _ h1 h2 (by simp) (by simp) (by simp)
  next h4 =>
  split at h
  next hc =>
    rcases hm : s.mode with _ | _
    · rw [exec_encodeFinish_rejected (.inl hm)] at h; cases h
      exact .answer _ h1 h2 (by simp) (by simp) (by simp)
    · rcases hp : s.phase with _ | _ | _ | _
      · rw [exec_encodeFinish_rejected (.inr (.inl hp))] at h; cases h
        exact .answer _ h1 h2 (by simp) (by simp) (by simp)
      · rw [exec_encodeFinish_active hm hp] at h; cases h; exact .finish hc hm hp
      · rw [exec_encodeFinish_done hm hp] at h; cases h
        exact .answer _ h1 h2 (by simp) (by simp) (fun hc' => absurd hc' h4)
      · rw [exec_encodeFinish_rejected (.inr (.inr hp))] at h; cases h
        exact .answer _ h1 h2 (by simp) (by simp) (by simp)
  next h5 =>
  split at h
  next hc =>
    rw [exec_readReg] at h; cases h
    exact .answer _ h1 h2 (by simp) (by simp) (by simp)
  next h6 =>
    rw [exec_reservedCommand] at h; cases h
    exact .answer _ h1 h2 (by simp) (by simp) (by simp)

/-- If a step answers next `t`, then no command was issued and the block rested, or `t` is the effect of
the next command at the state with it taken off the port. -/
theorem step_cases {s t : State} (h : step s = .next t) :
    (s.commands = [] ∧ t = s) ∨
    ∃ c rest, s.commands = c :: rest ∧ CommandEffect (s.withCommands rest) c t := by
  cases hc : s.commands with
  | nil => rw [step_of_no_command hc] at h; cases h; exact .inl ⟨rfl, rfl⟩
  | cons c rest =>
    simp only [step, State.takeCommand, hc] at h
    exact .inr ⟨c, rest, rfl, commandEffect_of_exec h⟩

end Machine

end Sys2Proof
end

