-- ==== Sys2Proof/Laws/Encoder.lean ====
section
/-! SUPPORT. One encode step said once: what it does to RUN, CACHE and OUT. -/

namespace Sys2Proof.Machine.State

/-- Steps 1 and 2 of an encode step and the cache (R171, R181): only a new pixel is written, to its own
slot. -/
@[simp] theorem readSlot_encodeBody (s : State) (px : Pixel) (j : SlotIndex) :
    (s.encodeBody px).readSlot j = if px ≠ s.px ∧ j = slotHash px then px else s.readSlot j := by
  simp only [encodeBody, continueRun, encodeNew]
  split
  · simp only [ne_eq, *, not_true_eq_false, false_and, if_false]
    split <;> rfl
  · simp [*]

/-- The pending run after steps 1 and 2 (R171, R172). -/
theorem run_encodeBody (s : State) (px : Pixel) :
    (s.encodeBody px).run =
      if px = s.px then (if (s.run + 1).toNat = Config.runMax then 0 else s.run + 1) else 0 := by
  simp only [encodeBody, continueRun, encodeNew]
  split
  · by_cases h : (s.run + 1).toNat = Config.runMax <;> simp only [run_withRun, if_pos, h] <;> rfl
  · simp

/-- What steps 1 and 2 write (R171, R172, R174). -/
theorem out_encodeBody (s : State) (px : Pixel) :
    (s.encodeBody px).out = s.out ++
      if px = s.px then
        (if (s.run + 1).toNat = Config.runMax then encodeStream (.run (s.run + 1).toNat) else [])
      else (if s.run ≠ 0 then encodeStream (.run s.run.toNat) else []) ++ encodeStream (s.select px) := by
  simp only [encodeBody, continueRun, encodeNew]
  split
  · by_cases h : (s.run + 1).toNat = Config.runMax
    · simp only [run_withRun, h, if_true]; rw [← h]; rfl
    · simp only [run_withRun, h, if_false, List.append_nil]; rfl
  · simp [out_flushRun]

@[simp] theorem readSlot_encodeStep (s : State) (px : Pixel) (j : SlotIndex) :
    (s.encodeStep px).readSlot j = if px ≠ s.px ∧ j = slotHash px then px else s.readSlot j := by
  simp only [encodeStep]; split <;> simp

/-- The pending run after an encode step: none once the budget is used up (R183, R184). -/
theorem run_encodeStep (s : State) (px : Pixel) :
    (s.encodeStep px).run = if s.remaining - 1 = 0 then 0 else (s.encodeBody px).run := by
  simp only [encodeStep, remaining_acceptPixel, remaining_encodeBody]; split <;> simp

/-- What an encode step writes: the step that uses up the budget also finishes the pass (R183). -/
theorem out_encodeStep (s : State) (px : Pixel) :
    (s.encodeStep px).out =
      if s.remaining - 1 = 0 then ((s.encodeBody px).acceptPixel px).finish.out
      else (s.encodeBody px).out := by
  simp only [encodeStep, remaining_acceptPixel, remaining_encodeBody]; split <;> simp

end Sys2Proof.Machine.State
end

