-- ==== Sys2Proof/Laws/Operands.lean ====
section
/-! SUPPORT. The operand arithmetic as plain integer facts (R10). -/

namespace Sys2Proof.Machine

/-- `wrap8` is the remainder modulo 256 (R10). -/
theorem toNat_wrap8 (x : Int) : ((wrap8 x).toNat : Int) = x % 256 := by
  simp [wrap8, BitVec.toNat_ofInt, Int.toNat_of_nonneg (Int.emod_nonneg x (by decide : (256 : Int) ≠ 0))]

/-- A byte is what it wraps to. -/
theorem wrap8_toNat (b : Byte) : wrap8 b.toNat = b := by
  apply BitVec.eq_of_toNat_eq
  have h := toNat_wrap8 b.toNat
  have := b.isLt
  omega

/-- `wrap8` sees its argument modulo 256 only. -/
theorem wrap8_congr {x y : Int} (h : (x - y) % 256 = 0) : wrap8 x = wrap8 y := by
  apply BitVec.eq_of_toNat_eq
  have hx := toNat_wrap8 x
  have hy := toNat_wrap8 y
  omega

/-- `sext_8` is in −128..127 and congruent to its argument (R10). -/
theorem sext8_range (v : Byte) :
    -128 ≤ sext8 v ∧ sext8 v ≤ 127 ∧ ((v.toNat : Int) - sext8 v) % 256 = 0 := by
  have := v.isLt
  unfold sext8
  split <;> omega

/-- The encoder's delta is in −128..127 and congruent to the channel difference (R173). -/
theorem channelDelta_range (cur prev : Byte) :
    -128 ≤ channelDelta cur prev ∧ channelDelta cur prev ≤ 127 ∧
      ((cur.toNat : Int) - prev.toNat - channelDelta cur prev) % 256 = 0 := by
  have h := sext8_range (wrap8 ((cur.toNat : Int) - prev.toNat))
  have hw := toNat_wrap8 ((cur.toNat : Int) - prev.toNat)
  unfold channelDelta
  omega

/-- Applying the encoder's delta gives the encoder's channel back. -/
theorem addDelta_channelDelta (cur prev : Byte) : addDelta prev (channelDelta cur prev) = cur := by
  have h := channelDelta_range cur prev
  rw [addDelta, wrap8_congr (y := cur.toNat) (by omega), wrap8_toNat]

end Sys2Proof.Machine
end

