-- ==== Sys2Proof/Laws/PerInstr.lean ====
section
/-! SUPPORT. Families of statements made per instruction (LAWS.json). -/

/-- The encoding of an instruction has as many stream bytes as R89 gives it; a command has none. -/
def Sys2Proof.Laws.EncodedLength.Statement (i : Sys2Proof.Instr) : Prop :=
  (Sys2Proof.encodeStream i).length = i.byteLength

namespace Sys2Proof.Laws.EncodedLength

theorem index (i : SlotIndex) : Statement (.index i) := rfl
theorem diff (dr dg db : Int) : Statement (.diff dr dg db) := rfl
theorem luma (dg x y : Int) : Statement (.luma dg x y) := rfl
theorem run (len : Nat) : Statement (.run len) := rfl
theorem rgb (r g b : Byte) : Statement (.rgb r g b) := rfl
theorem rgba (r g b a : Byte) : Statement (.rgba r g b a) := rfl
theorem startDecode (n : BitVec 64) (bytes : List Byte) : Statement (.startDecode n bytes) := rfl
theorem startEncode (n : BitVec 64) : Statement (.startEncode n) := rfl
theorem decodeNext : Statement .decodeNext := rfl
theorem encodePixel (p : Pixel) : Statement (.encodePixel p) := rfl
theorem encodeFinish : Statement .encodeFinish := rfl
theorem readReg (k : Byte) : Statement (.readReg k) := rfl
theorem reservedCommand (code : Byte) : Statement (.reservedCommand code) := rfl
theorem endMarker : Statement .endMarker := rfl

end Sys2Proof.Laws.EncodedLength
end

