-- ==== Sys2Proof/Tests/Slice0.lean ====
section
/-! SUPPORT. Tests of the definitions, with expected results from the spec's own examples and vectors
(95_test_vectors.md, named at each test), and a witness for the hypotheses of every statement. -/

namespace Sys2Proof.Tests

open Sys2Proof Sys2Proof.Machine

/-! ## Helpers -/

/-- Does an outcome go on, to a state with this property? -/
def nextIs (o : Host.Outcome State Fault Refusal) (p : State → Bool) : Bool :=
  match o with
  | .next t => p t
  | .fault _ => false
  | .refused _ => false

theorem exists_of_nextIs {o : Host.Outcome State Fault Refusal} {p : State → Bool}
    (h : nextIs o p = true) : ∃ t, o = .next t ∧ p t = true := by
  cases o <;> simp_all [nextIs]

/-- A decode pass at its start, over these bytes. -/
def decAt (n : BitVec 64) (bytes : List Byte) : State :=
  { State.reset with phase := .active, remaining := n, input := some bytes }

/-- An encode pass at its start, with this pending run. -/
def encAt (n : BitVec 64) (run : BitVec 6) : State :=
  { State.reset with mode := .enc, phase := .active, remaining := n, run := run }

theorem decAt_decoding (n : BitVec 64) (bytes : List Byte) (h : n ≠ 0) : (decAt n bytes).Decoding :=
  ⟨rfl, rfl, h⟩

theorem decAt_awaiting (n : BitVec 64) (bytes : List Byte) (h : n ≠ 0) : (decAt n bytes).Awaiting :=
  ⟨decAt_decoding n bytes h, rfl⟩

/-- A decode pass with a queued run and commands issued meets the invariant. -/
theorem decAt_inv (n : BitVec 64) (bytes : List Byte) (cs : List Request) (h : n ≠ 0) :
    ({ decAt n bytes with commands := cs } : State).Inv where
  slots i := .inl (State.readSlot_of_initCache rfl i)
  runBound := by show (0 : BitVec 6).toNat ≤ 61; decide
  budget _ := h
  causeNone _ := rfl
  failedCause hf := by cases hf
  position := Nat.zero_le _
  attached _ _ hn := by cases hn
  idleMode hi := by cases hi
  finished hm := by cases hm

/-- An encode pass with commands issued meets the invariant. -/
theorem encAt_inv (n : BitVec 64) (cs : List Request) (h : n ≠ 0) :
    ({ encAt n 0 with commands := cs } : State).Inv where
  slots i := .inl (State.readSlot_of_initCache rfl i)
  runBound := by show (0 : BitVec 6).toNat ≤ 61; decide
  budget _ := h
  causeNone _ := rfl
  failedCause hf := by cases hf
  position := Nat.zero_le _
  attached hm := by cases hm
  idleMode hi := by cases hi
  finished _ hd := by cases hd

/-! ## WellFormed refuses an ill-formed term for each check (R83 to R85, R93, R220) -/

theorem test_wf_diff_dr : (Instr.diff 2 0 0).wf = false := by decide
theorem test_wf_diff_dg : (Instr.diff 0 (-3) 0).wf = false := by decide
theorem test_wf_diff_db : (Instr.diff 0 0 2).wf = false := by decide
theorem test_wf_luma_dg : (Instr.luma 32 0 0).wf = false := by decide
theorem test_wf_luma_drDg : (Instr.luma 0 8 0).wf = false := by decide
theorem test_wf_luma_dbDg : (Instr.luma 0 0 (-9)).wf = false := by decide
theorem test_wf_run_zero : (Instr.run 0).wf = false := by decide
theorem test_wf_run_long : (Instr.run 63).wf = false := by decide
theorem test_wf_reserved : (Instr.reservedCommand 6).wf = false := by decide
theorem test_assemble_rejects : assemble (.run 63) = none := by decide

/-! ## Words written out bit by bit from R82 to R87 and R220 -/

theorem test_decode_index : decodeOpcode [0b00_001110] = .ok (.index 14, 1) := by decide
theorem test_decode_diff : decodeOpcode [0b01_00_10_11] = .ok (.diff (-2) 0 1, 1) := by decide
theorem test_decode_luma : decodeOpcode [0b10_100010, 0b1001_0111] = .ok (.luma 2 1 (-1), 2) := by decide
theorem test_decode_run : decodeOpcode [0b11_111101] = .ok (.run 62, 1) := by decide
theorem test_decode_rgb : decodeOpcode [0b11111110, 16, 32, 48] = .ok (.rgb 16 32 48, 4) := by decide
theorem test_decode_rgba : decodeOpcode [0b11111111, 1, 2, 3, 4] = .ok (.rgba 1 2 3 4, 5) := by decide
theorem test_decode_truncated : decodeOpcode [0xFE, 1, 2] = .error .truncated := by decide
theorem test_decode_startDecode :
    decodeCommand ⟨0x01, 16, [0xC0], 0, 0⟩ = .startDecode 16 [0xC0] := by decide
theorem test_decode_startEncode : decodeCommand ⟨0x02, 5, [], 0, 0⟩ = .startEncode 5 := by decide
theorem test_decode_decodeNext : decodeCommand ⟨0x03, 0, [], 0, 0⟩ = .decodeNext := by decide
theorem test_decode_encodePixel :
    decodeCommand ⟨0x04, 0, [], 0x01020304, 0⟩ = .encodePixel ⟨1, 2, 3, 4⟩ := by decide
theorem test_decode_encodeFinish : decodeCommand ⟨0x05, 0, [], 0, 0⟩ = .encodeFinish := by decide
theorem test_decode_readReg : decodeCommand ⟨0x06, 0, [], 0, 2⟩ = .readReg 2 := by decide
theorem test_decode_reserved : decodeCommand ⟨0xFF, 0, [], 0, 0⟩ = .reservedCommand 0xFF := by decide
theorem test_encode_luma : encode (.luma 2 1 (-1)) = .stream [0xA2, 0x97] := by decide
theorem test_encode_run : encode (.run 62) = .stream [0xFD] := by decide
theorem test_encode_end : encode .endMarker = .stream [0, 0, 0, 0, 0, 0, 0, 1] := by decide

/-! ## Words of the opcode table -/

theorem test_table_index : decodeTableWord 8 0x00 = some (.index 0) := by decide
theorem test_table_luma : decodeTableWord 8 0x80 = some (.luma (-32) (-8) (-8)) := by decide
theorem test_table_rgb : decodeTableWord 32 0x302010FE = some (.rgb 0x10 0x20 0x30) := by decide
theorem test_table_rgba : decodeTableWord 40 0x04030201FF = some (.rgba 1 2 3 4) := by decide
theorem test_table_startDecode : decodeTableWord 8 0x01 = some (.startDecode 0 []) := by decide
theorem test_table_readReg : decodeTableWord 8 0x06 = some (.readReg 0) := by decide
theorem test_table_end : decodeTableWord 64 0x0100000000000000 = some .endMarker := by decide
theorem test_table_end_as_written : decodeTableWord 64 1 = some .endMarker := by decide

/-- The next step after placing an opcode word runs it: 0x302010FE emits (16,32,48,255) (V-D1). -/
theorem test_withFetchWord_rgb :
    nextIs (step (State.reset.withFetchWord 32 0x302010FE)) (fun t =>
      t.responses == [.pixel ⟨16, 32, 48, 255⟩] && t.inPos == 4) = true := by decide
theorem test_withFetchWord_startEncode :
    nextIs (step (State.reset.withFetchWord 8 0x02)) (fun t =>
      t.responses == [.ok] && t.out == [0, 0, 0, 0, 0, 0, 0, 1]) = true := by decide
theorem test_withFetchWord_end :
    nextIs (step (State.reset.withFetchWord 64 0x0100000000000000)) (fun t =>
      t.out == [0, 0, 0, 0, 0, 0, 0, 1]) = true := by decide

/-! ## The index generator (V-H2, V-H3, V-H15) -/

theorem test_hash_init : slotHash ⟨0, 0, 0, 255⟩ = 53 := by decide
theorem test_hash_max : slotHash ⟨255, 255, 255, 255⟩ = 38 := by decide
theorem test_hash_63 : slotHash ⟨21, 0, 0, 0⟩ = 63 := by decide

/-! ## One step each -/

/-- V-D6: INDEX 53 at pass start yields (0,0,0,0). -/
theorem test_index_unwritten :
    nextIs (exec .decodeNext (decAt 1 [0x35])) (fun t =>
      t.px == ⟨0, 0, 0, 0⟩ && t.phase == .done && t.inPos == 1) = true := by decide
/-- V-D8: DIFF wraps below 0; V-F3 fixes the field order. -/
theorem test_diff_wraps :
    nextIs (exec .decodeNext (decAt 1 [0x40])) (fun t =>
      t.px == ⟨254, 254, 254, 255⟩ && t.readSlot 23 == ⟨254, 254, 254, 255⟩) = true := by decide
theorem test_diff_order :
    nextIs (exec .decodeNext (decAt 1 [0x4B])) (fun t => t.px == ⟨254, 0, 1, 255⟩) = true := by decide
/-- V-D12 and V-F1: LUMA wraps; red takes the green delta, not the new green. -/
theorem test_luma_wraps :
    nextIs (exec .decodeNext (decAt 1 [0x80, 0x00])) (fun t => t.px == ⟨216, 224, 216, 255⟩) = true := by
  decide
theorem test_luma_not_new_green :
    nextIs (exec .decodeNext { decAt 1 [0xA2, 0x97] with px := ⟨10, 20, 30, 255⟩ })
      (fun t => t.px == ⟨13, 22, 31, 255⟩) = true := by decide
/-- V-D16: the budget ends inside a run; V-F5: no cache write for a RUN pixel. -/
theorem test_run_budget :
    nextIs (exec .decodeNext (decAt 1 [0xC2])) (fun t =>
      t.run == 2 && t.phase == .done && t.statusWord == 0x082 && t.readSlot 53 == ⟨0, 0, 0, 0⟩) = true := by
  decide
/-- V-D3: RGB keeps the alpha of PX. -/
theorem test_rgb_keeps_alpha :
    nextIs (exec .decodeNext { decAt 1 [0xFE, 9, 9, 9] with px := ⟨1, 2, 3, 4⟩ }) (fun t =>
      t.px == ⟨9, 9, 9, 4⟩ && t.readSlot 51 == ⟨9, 9, 9, 4⟩) = true := by decide
/-- V-D2. -/
theorem test_rgba :
    nextIs (exec .decodeNext (decAt 1 [0xFF, 1, 2, 3, 4])) (fun t =>
      t.px == ⟨1, 2, 3, 4⟩ && t.readSlot 14 == ⟨1, 2, 3, 4⟩ && t.inPos == 5) = true := by decide
/-- V-T3: RGBA payload cut; STATUS 0x013. -/
theorem test_truncated :
    nextIs (exec .decodeNext (decAt 1 [0xFF, 1, 2, 3])) (fun t =>
      t.responses == [.fail .truncatedInput] && t.statusWord == 0x013 && t.inPos == 4 &&
      t.px == ⟨0, 0, 0, 255⟩ && t.remaining == 1) = true := by decide
/-- V-E4: DIFF with wrapped deltas. -/
theorem test_encode_diff :
    nextIs (exec (.encodePixel ⟨254, 255, 1, 255⟩) (encAt 2 0)) (fun t => t.out == [0x47]) = true := by
  decide
/-- V-E25: the pending run is flushed before the next opcode. -/
theorem test_encode_flush :
    nextIs (exec (.encodePixel ⟨1, 1, 1, 255⟩) (encAt 1 2)) (fun t =>
      t.out == [0xC1, 0x7F, 0, 0, 0, 0, 0, 0, 0, 1] && t.phase == .done) = true := by decide
/-- V-E10: the 62nd repeat is written as FD at once. -/
theorem test_encode_run62 :
    nextIs (exec (.encodePixel ⟨0, 0, 0, 255⟩) (encAt 2 61)) (fun t => t.out == [0xFD] && t.run == 0) = true := by
  decide
/-- V-E31: ENCODE_FINISH with two repeats pending. -/
theorem test_finish :
    nextIs (exec .encodeFinish (encAt 2 2)) (fun t => t.out == [0xC1, 0, 0, 0, 0, 0, 0, 0, 1]) = true := by
  decide
/-- R221's example. -/
theorem test_startDecode :
    nextIs (exec (.startDecode 16 [0xC0]) (encAt 3 1)) (fun t =>
      t.statusWord == 0x001 && t.remaining == 16) = true := by decide
/-- V-E29. -/
theorem test_startEncode_zero :
    nextIs (exec (.startEncode 0) (decAt 1 [])) (fun t =>
      t.out == [0, 0, 0, 0, 0, 0, 0, 1] && t.phase == .done) = true := by decide
/-- V-C6: STATUS 0x0C9 with a run of 3 pending; V-C5: REMAINING_HI. -/
theorem test_readReg_status :
    nextIs (exec (.readReg 0) (encAt 2 3)) (fun t => t.responses == [.value 0xC9]) = true := by decide
theorem test_readReg_hi :
    nextIs (exec (.readReg 2) (decAt 4294967301 [])) (fun t => t.responses == [.value 1]) = true := by decide
/-- V-C3. -/
theorem test_reserved :
    nextIs (exec (.reservedCommand 7) State.reset) (fun t => t.responses == [.rejected]) = true := by decide
/-- R92: the end marker read as opcodes; V-D22's eight pixels. -/
theorem test_endMarker_decode :
    nextIs (exec .endMarker (decAt 8 [])) (fun t =>
      t.phase == .done && t.responses == List.replicate 8 (.pixel ⟨0, 0, 0, 0⟩)) = true := by decide

/-! ## Framing (V-S7h, V-S6a, V-S6b, V-S6c) -/

theorem test_header_ok :
    decodeHeader [0x71, 0x6F, 0x69, 0x66, 0, 0, 0, 4, 0, 0, 0, 4, 4, 0, 0xC0] =
      .ok (⟨4, 4, .rgba, .srgb⟩, [0xC0]) := by rfl
theorem test_header_magic :
    decodeHeader [0x72, 0x6F, 0x69, 0x66, 0, 0, 0, 4, 0, 0, 0, 4, 4, 0] = .error .invalidHeader := by rfl
theorem test_header_zero :
    decodeHeader [0x71, 0x6F, 0x69, 0x66, 0, 0, 0, 0, 0, 0, 0, 4, 4, 0] = .error .invalidHeader := by rfl
theorem test_header_tag :
    decodeHeader [0x71, 0x6F, 0x69, 0x66, 0, 0, 0, 4, 0, 0, 0, 4, 5, 0] = .error .invalidHeader := by rfl
theorem test_pixelCount : (⟨4, 4, .rgba, .srgb⟩ : Header).pixelCount = 16 := by decide

/-! ## Witnesses: concrete values that meet the hypotheses of each statement -/

theorem witness_FirstByteGivesOpcodeAndLength :
    classify 0x00 = .index ∧ classify 0x3F = .index ∧ classify 0x40 = .diff ∧ classify 0x7F = .diff ∧
    classify 0x80 = .luma ∧ classify 0xBF = .luma ∧ classify 0xC0 = .run ∧ classify 0xFD = .run ∧
    classify 0xFE = .rgb ∧ classify 0xFF = .rgba := by decide
theorem witness_OpcodeFieldLayouts :
    (61 : BitVec 6).toNat ≤ 61 ∧ decodeOpcode [0b11#2 ++ (61 : BitVec 6)] = .ok (.run 62, 1) := by decide
theorem witness_NoByteSequenceIsMalformed :
    payloadLength 0x80 ≤ [(1 : Byte)].length ∧ payloadLength 0x00 ≤ ([] : List Byte).length ∧
    [(1 : Byte), 2].length < payloadLength 0xFE := by decide
theorem witness_DecodeOfEncodeIsIdentity :
    (Instr.luma (-32) 7 (-8)).wf = true ∧ (Instr.luma (-32) 7 (-8)).isOpcode = true ∧
    (Instr.reservedCommand 7).wf = true ∧ (Instr.reservedCommand 7).isCommand = true := by decide
theorem witness_EncodeOfDecodeIsIdentity :
    decodeOpcode [0xBF, 0xFF, 0x00] = .ok (.luma 31 7 7, 2) := by decide
theorem witness_AssemblerBytesAndRejection :
    (Instr.diff (-2) 1 (-2)).wf = true ∧ (Instr.luma 31 (-8) 7).wf = true ∧ (Instr.run 1).wf = true ∧
    (Instr.run 62).wf = true ∧ (Instr.run 63).wf = false := by decide

/-- For IndexResolvesCacheSlot, DiffResolvesWrappedSum, LumaResolvesWrappedSum, FullColorResolves and
TruncationPoints. -/
theorem witness_Decoding : (decAt 1 [0x35]).Decoding := decAt_decoding _ _ (by decide)
theorem witness_RunQueuesRepeats :
    (decAt 1 []).Decoding ∧ (Instr.run 1).wf = true ∧ (Instr.run 62).wf = true :=
  ⟨decAt_decoding _ _ (by decide), by decide, by decide⟩
theorem witness_OnlyRgbaAndIndexChangeAlpha :
    (decAt 2 []).Decoding ∧ (∃ t, exec (.rgb 1 2 3) (decAt 2 []) = .next t) ∧
    (∃ t, exec (.diff 1 1 1) (decAt 2 []) = .next t) ∧
    (∃ t, exec (.luma 1 1 1) (decAt 2 []) = .next t) ∧ (∃ t, exec (.run 3) (decAt 2 []) = .next t) ∧
    ({ decAt 2 [] with run := 1 } : State).Decoding ∧
    ∃ t, exec .decodeNext { decAt 2 [] with run := 1 } = .next t :=
  ⟨decAt_decoding _ _ (by decide), ⟨_, rfl⟩, ⟨_, rfl⟩, ⟨_, rfl⟩, ⟨_, rfl⟩, ⟨rfl, rfl, by decide⟩, ⟨_, rfl⟩⟩
theorem witness_DecodeNextContinuesRun :
    ({ decAt 2 [] with run := 61 } : State).Decoding ∧ ({ decAt 2 [] with run := 61 } : State).run ≠ 0 :=
  ⟨⟨rfl, rfl, by decide⟩, by decide⟩
theorem witness_DecodeNextRunsFetchedOpcode :
    (decAt 1 [0x80, 0x00]).Awaiting ∧
    decodeOpcode ((decAt 1 [0x80, 0x00]).inBytes.drop (decAt 1 [0x80, 0x00]).inPos) =
      .ok (.luma (-32) (-8) (-8), 2) :=
  ⟨decAt_awaiting _ _ (by decide), by decide⟩
theorem witness_TruncationIsPrecise :
    (decAt 1 [0x80]).Awaiting ∧
    decodeOpcode ((decAt 1 [0x80]).inBytes.drop (decAt 1 [0x80]).inPos) = .error .truncated :=
  ⟨decAt_awaiting _ _ (by decide), by decide⟩
theorem witness_TruncationPoints :
    (decAt 1 []).Decoding ∧ (∃ t, exec .decodeNext (decAt 1 []) = .next t ∧ (t.phase == .failed) = true) ∧
    (decAt 1 [0]).Decoding ∧ (∃ t, exec .decodeNext (decAt 1 [0]) = .next t ∧ (t.phase == .done) = true) :=
  ⟨decAt_decoding _ _ (by decide), exists_of_nextIs (by decide),
    decAt_decoding _ _ (by decide), exists_of_nextIs (by decide)⟩
/-- For FailedIsSticky and the FAILED row of CommandValidityTable. -/
theorem witness_FailedIsSticky :
    ((decAt 1 []).faultEntry .truncatedInput).phase = .failed ∧
    ((decAt 1 []).faultEntry .truncatedInput).mode = .dec := by decide
theorem witness_DecoderReadsNothingAhead :
    (decAt 2 []).Decoding ∧ (decAt 2 []).inPos ≤ [(0x7F : Byte)].length ∧
    ∃ t, exec .decodeNext { decAt 2 [] with input := some ([0x7F] ++ [0xFE]) } = .next t ∧
      (t.phase != .failed && decide (t.inPos ≤ [(0x7F : Byte)].length)) = true :=
  ⟨decAt_decoding _ _ (by decide), by decide, exists_of_nextIs (by decide)⟩
theorem witness_EndMarkerReadsAsIndexOpcodes :
    (decAt 8 [0, 0, 0, 0, 0, 0, 0, 1]).Awaiting ∧ 8 ≤ (decAt 8 [0, 0, 0, 0, 0, 0, 0, 1]).remaining.toNat ∧
    (decAt 8 [0, 0, 0, 0, 0, 0, 0, 1]).inBytes.drop 0 = [0, 0, 0, 0, 0, 0, 0, 1] ++ [] :=
  ⟨decAt_awaiting _ _ (by decide), by decide, by decide⟩
/-- For OpcodesEmitTheirBytes and EncoderRaisesNoFault. -/
theorem witness_OpcodesEmitTheirBytes :
    (encAt 1 0).mode = .enc ∧ (Instr.diff 1 (-2) 1).wf = true ∧ (Instr.luma (-32) 7 (-8)).wf = true ∧
    (Instr.run 62).wf = true ∧ Instr.encodeFinish ∈ [.encodePixel ⟨0, 0, 0, 0⟩, .encodeFinish] := by decide
/-- Run below, at and from the boundary 61, with and without budget left after the step. -/
theorem witness_EncodePixelExtendsRun :
    (encAt 2 0).Encoding ∧ (encAt 2 60).Encoding ∧ (encAt 2 61).Encoding ∧ (encAt 1 61).Encoding ∧
    (encAt 1 60).Encoding :=
  ⟨⟨rfl, rfl, by decide, by decide⟩, ⟨rfl, rfl, by decide, by decide⟩, ⟨rfl, rfl, by decide, by decide⟩,
    ⟨rfl, rfl, by decide, by decide⟩, ⟨rfl, rfl, by decide, by decide⟩⟩
theorem witness_EncodePixelResolves :
    (encAt 1 3).Encoding ∧ (⟨1, 1, 1, 255⟩ : Pixel) ≠ (encAt 1 3).px :=
  ⟨⟨rfl, rfl, by decide, by decide⟩, by decide⟩
/-- The deltas of (255,0,32) from (0,0,0) in wrapped form, and each of the selector's five choices
(V-E2, V-E5, V-E6, V-E17, V-E21). -/
theorem witness_SelectorFollowsFixedOrder :
    (-128 ≤ (-1 : Int) ∧ (-1 : Int) ≤ 127 ∧
      (((255 : Byte).toNat : Int) - (0 : Byte).toNat - (-1)) % 256 = 0) ∧
    (encAt 1 0).select ⟨0, 0, 0, 0⟩ = .index 0 ∧ (encAt 1 0).select ⟨255, 0, 1, 255⟩ = .diff (-1) 0 1 ∧
    (encAt 1 0).select ⟨2, 0, 0, 255⟩ = .luma 0 2 0 ∧ (encAt 1 0).select ⟨0, 32, 0, 255⟩ = .rgb 0 32 0 ∧
    (encAt 1 0).select ⟨1, 1, 1, 254⟩ = .rgba 1 1 1 254 := by decide
theorem witness_SelectedOpcodeDecodesToPixel :
    (encAt 1 0).Encoding ∧ (⟨1, 1, 1, 255⟩ : Pixel) ≠ (encAt 1 0).px ∧ (decAt 1 []).Decoding ∧
    (decAt 1 []).cache = (encAt 1 0).cache ∧ (decAt 1 []).px = (encAt 1 0).px :=
  ⟨⟨rfl, rfl, by decide, by decide⟩, by decide, decAt_decoding _ _ (by decide), rfl, rfl⟩
theorem witness_EncodeFinishEndsPass :
    (encAt 2 2).Encoding ∧ (encAt 2 0).Encoding ∧ (encAt 2 2).finish.mode = .enc ∧
    (encAt 2 2).finish.phase = .done ∧ ¬ (State.reset.mode = .enc ∧ (State.reset.phase = .active ∨
      State.reset.phase = .done)) :=
  ⟨⟨rfl, rfl, by decide, by decide⟩, ⟨rfl, rfl, by decide, by decide⟩, by decide, by decide, by decide⟩
/-- One state for each column of the table of R227, and both bounds of the reserved codes. -/
theorem witness_CommandValidityTable :
    (State.reset.phase = .idle ∧ State.reset.mode = .dec) ∧
    ((decAt 1 []).phase = .active ∧ (decAt 1 []).mode = .dec) ∧
    ((encAt 1 0).phase = .active ∧ (encAt 1 0).mode = .enc) ∧
    ((decAt 1 []).emitPixel.phase = .done ∧ (decAt 1 []).emitPixel.mode = .dec) ∧
    ((encAt 1 0).finish.phase = .done ∧ (encAt 1 0).finish.mode = .enc) ∧
    ((0 : Byte) = 0 ∧ 7 ≤ (7 : Byte).toNat) := by decide
theorem witness_ReadRegReturnsStatusView : 3 ≤ (3 : Byte).toNat ∧ 3 ≤ (255 : Byte).toNat := by decide
/-- For StepRunsIssuedCommand, EveryCommandGivesOneResponse. -/
theorem witness_StepRunsIssuedCommand :
    ({ State.reset with commands := [Request.bare 0x03] } : State).commands = Request.bare 0x03 :: [] := rfl
theorem witness_StepRunsDecodedOpcode :
    ({ decAt 1 [0x35] with commands := [Request.bare 0x03] } : State).commands = Request.bare 0x03 :: [] ∧
    (Request.bare 0x03).code = 0x03 ∧
    ({ decAt 1 [0x35] with commands := [Request.bare 0x03] } : State).Awaiting ∧
    decodeOpcode (({ decAt 1 [0x35] with commands := [Request.bare 0x03] } : State).inBytes.drop 0) =
      .ok (.index 53, 1) :=
  ⟨rfl, rfl, ⟨⟨rfl, rfl, by decide⟩, rfl⟩, by decide⟩
/-- For StepKeepsInvariant and ReservedCausesAreNeverSet. -/
theorem witness_StepKeepsInvariant :
    ({ decAt 2 [0x7F] with commands := [Request.bare 0x03] } : State).Inv ∧
    ∃ t, step { decAt 2 [0x7F] with commands := [Request.bare 0x03] } = .next t ∧
      (t.px == ⟨1, 1, 1, 255⟩) = true :=
  ⟨decAt_inv _ _ _ (by decide), exists_of_nextIs (by decide)⟩
/-- The three clauses: START_DECODE, START_ENCODE, and any other command. -/
theorem witness_OnlyStartCommandsWriteMode :
    (∃ t, step { encAt 2 0 with commands := [Request.bare 0x01] } = .next t ∧ (t.mode == .dec) = true) ∧
    (∃ t, step { decAt 2 [] with commands := [Request.bare 0x02] } = .next t ∧ (t.mode == .enc) = true) ∧
    (∃ t, step { encAt 2 0 with commands := [Request.bare 0x05] } = .next t ∧ (t.mode == .enc) = true) :=
  ⟨exists_of_nextIs (by decide), exists_of_nextIs (by decide), exists_of_nextIs (by decide)⟩
theorem witness_OutIsAppendOnly :
    (Request.bare 0x05).code ≠ 0x02 ∧ (decAt 1 [0]).mode = .dec ∧
    (∃ t, step { encAt 2 0 with commands := [Request.bare 0x05] } = .next t ∧
      (t.out == [0, 0, 0, 0, 0, 0, 0, 1]) = true) ∧
    (∃ t, step { decAt 1 [0] with commands := [Request.bare 0x03] } = .next t ∧ (t.out == []) = true) :=
  ⟨by decide, rfl, exists_of_nextIs (by decide), exists_of_nextIs (by decide)⟩
/-- For InputIsOnlyRead, and the counted clauses of RemainingCountsPixels. -/
theorem witness_RemainingCountsPixels :
    ({ decAt 2 [0x7F] with commands := [Request.bare 0x03] } : State).Inv ∧
    (∃ t, step { decAt 2 [0x7F] with commands := [Request.bare 0x03] } = .next t ∧
      (t.responses == [.pixel ⟨1, 1, 1, 255⟩]) = true) ∧
    ({ encAt 2 0 with commands := [pixelRequest ⟨1, 1, 1, 255⟩] } : State).Inv ∧
    (∃ t, step { encAt 2 0 with commands := [pixelRequest ⟨1, 1, 1, 255⟩] } = .next t ∧
      (t.responses == [.ok]) = true) ∧
    ({ encAt 2 0 with commands := [Request.bare 0x05] } : State).Inv ∧
    (∃ t, step { encAt 2 0 with commands := [Request.bare 0x05] } = .next t ∧ (t.remaining == 2) = true) :=
  ⟨decAt_inv _ _ _ (by decide), exists_of_nextIs (by decide), encAt_inv _ _ (by decide),
    exists_of_nextIs (by decide), encAt_inv _ _ (by decide), exists_of_nextIs (by decide)⟩
/-- One changed slot in each direction. -/
theorem witness_CacheChangesOnlyAtResolvedPixel :
    (∃ t, step { decAt 2 [0x7F] with commands := [Request.bare 0x03] } = .next t ∧
      (t.readSlot 4 != (decAt 2 [0x7F]).readSlot 4) = true) ∧
    (∃ t, step { encAt 2 3 with commands := [pixelRequest ⟨1, 1, 1, 255⟩] } = .next t ∧
      (t.readSlot 4 != (encAt 2 3).readSlot 4) = true) :=
  ⟨exists_of_nextIs (by decide), exists_of_nextIs (by decide)⟩
theorem witness_PassStartErasesHistory :
    (Request.bare 0x01).code = 0x01 ∧ (Request.bare 0x02).code = 0x02 := by decide
/-- For EncodeThenDecodeGivesPixelsBack, DecodePassCount and DecodePassReadsExactlyItsOpcodes. -/
theorem witness_EncodeThenDecodeGivesPixelsBack :
    1 ≤ [(⟨1, 1, 1, 255⟩ : Pixel)].length ∧ [(⟨1, 1, 1, 255⟩ : Pixel)].length < 2 ^ 64 := by decide
/-- At both sides of the boundary n − k = 8. -/
theorem witness_ShortInputDecodesThenRunsIntoMarker :
    [(⟨1, 1, 1, 255⟩ : Pixel)].length < 9 ∧ 9 - [(⟨1, 1, 1, 255⟩ : Pixel)].length ≤ 8 ∧
    8 < 10 - [(⟨1, 1, 1, 255⟩ : Pixel)].length ∧ 10 < 2 ^ 64 := by decide
theorem witness_InstancesAreIndependent :
    stepInstance 1 [decAt 1 [], State.reset] = .next [decAt 1 [], State.reset] ∧
    [decAt 1 [], State.reset][1]? = some State.reset ∧ step State.reset = .next State.reset := ⟨rfl, rfl, rfl⟩
/-- For HeaderRoundTrip and PixelCountIsExact, at both ends of the range of R53. -/
theorem witness_HeaderRoundTrip :
    (⟨1, 1, .rgb, .linear⟩ : Header).valid = true ∧
    (⟨0xFFFFFFFF, 0xFFFFFFFF, .rgba, .srgb⟩ : Header).valid = true := by decide

end Sys2Proof.Tests
end

section
/-! Proofs of family 00_scope.md (R13): which meaning a step runs. -/

namespace Sys2Proof.Machine

/-- The step's case with a command issued; `step_of_no_command` is the other one (R13, R61). -/
theorem step_of_command {s : State} {c : Request} {rest : List Request} (h : s.commands = c :: rest) :
    step s = exec (decodeCommand c) (s.withCommands rest) := by
  simp only [step, State.takeCommand, h]

/-- Code 0x03 is DECODE_NEXT (R220, R223). -/
theorem decodeCommand_decodeNext {c : Request} (h : c.code = 0x03) : decodeCommand c = .decodeNext := by
  simp [decodeCommand, h]

/-- Issuing commands leaves the decoder's state alone. -/
theorem State.Awaiting.withCommands {s : State} (h : s.Awaiting) (cs : List Request) :
    (s.withCommands cs).Awaiting := h

/-- DECODE_NEXT in AWAITING_OPCODE is the opcode at IN_POS, with IN_POS moved past its bytes (R130, R132). -/
theorem exec_decodeNext_opcode {s : State} (h : s.Awaiting) {i : Instr} {k : Nat}
    (hd : decodeOpcode (s.inBytes.drop s.inPos) = .ok (i, k)) :
    exec .decodeNext s = exec i (s.advance i.byteLength) := by
  obtain ⟨⟨hmode, hphase, -⟩, hrun⟩ := h
  rw [exec_decodeNext_active hmode hphase, decodeStep_opcode hrun hd, byteLength_of_decodeOpcode hd]

/-- Settles O37: the step's own case with a command issued. -/
theorem stepRunsIssuedCommand : Obligations.StepRunsIssuedCommand :=
  fun _ _ _ hcommands => step_of_command hcommands

/-- Settles O38: the step runs DECODE_NEXT, and in AWAITING_OPCODE that is the fetched opcode. -/
theorem stepRunsDecodedOpcode : Obligations.StepRunsDecodedOpcode := by
  intro s c rest i k hcommands hcode hawaiting hdecode
  calc step s
      = exec .decodeNext (s.withCommands rest) := by
        rw [step_of_command hcommands, decodeCommand_decodeNext hcode]
    _ = exec i ((s.withCommands rest).advance i.byteLength) :=
        exec_decodeNext_opcode (hawaiting.withCommands rest) hdecode

end Sys2Proof.Machine
end

section
/-! Proofs of family 10_state.md (R20 to R38): what every step keeps of the state. Each claim is one case
analysis over `CommandEffect`; the invariant is first kept operation by operation. -/

namespace Sys2Proof.Machine

/-- The step's inversion for a claim that names the command issued. -/
theorem commandEffect_of_step {s t : State} {c : Request} {rest : List Request}
    (hcommands : s.commands = c :: rest) (h : step s = .next t) :
    CommandEffect (s.withCommands rest) c t :=
  commandEffect_of_exec (step_of_command hcommands ▸ h)

/-! ## The invariant at reset and at pass start -/

/-- R31 at reset: every slot is (0,0,0,0), and PHASE is IDLE in MODE DEC with nothing attached. -/
theorem State.Inv.reset : State.reset.Inv where
  slots i := .inl (State.readSlot_of_initCache rfl i)
  runBound := Nat.zero_le _
  budget hp := nomatch hp
  causeNone _ := rfl
  failedCause hp := nomatch hp
  position := Nat.zero_le _
  attached _ hp := absurd rfl hp
  idleMode _ := rfl
  finished hm := nomatch hm

/-- Only a budget starts a pass that runs (R37). -/
theorem startPhase_eq_active {n : BitVec 64} : startPhase n = .active ↔ n ≠ 0 := by
  simp [startPhase]

/-- A pass starts in ACTIVE or DONE (R37). -/
theorem startPhase_cases (n : BitVec 64) : startPhase n = .active ∨ startPhase n = .done := by
  unfold startPhase; split
  · exact .inr rfl
  · exact .inl rfl

/-- START_DECODE establishes the invariant, from any state (R31, R221). -/
theorem State.Inv.startDecodePass (s : State) (n : BitVec 64) (stream : List Byte) :
    (s.startDecodePass n stream).Inv where
  slots i := .inl (State.readSlot_of_initCache rfl i)
  runBound := Nat.zero_le _
  budget hp := startPhase_eq_active.mp hp
  causeNone _ := rfl
  failedCause hp := by rcases startPhase_cases n with h | h <;> exact nomatch h.symm.trans hp
  position := Nat.zero_le _
  attached _ _ := Option.some_ne_none _
  idleMode _ := rfl
  finished hm := nomatch hm

/-! ## The invariant and the operations of a pull -/

section Operations
variable {s : State} (h : s.Inv)
include h

theorem State.Inv.respond (x : Response) : (s.respond x).Inv := { h with }

/-- The read position moves past bytes that are there (R38, R57). -/
theorem State.Inv.advance {k : Nat} (hk : s.inPos + k ≤ s.inBytes.length) : (s.advance k).Inv :=
  { h with position := hk }

/-- RUN in a decode pass takes any value up to 61 (R31 (2), R131, R138). -/
theorem State.Inv.withRun (hmode : s.mode = .dec) {r : BitVec 6} (hr : r.toNat ≤ 61) :
    (s.withRun r).Inv :=
  { h with runBound := hr, finished := fun hm => nomatch hmode.symm.trans hm }

/-- R31 (1): the cache update writes a pixel to the slot it hashes to. -/
theorem State.Inv.resolve (p : Pixel) : (s.resolve p).Inv :=
  { h with
    slots := fun i => by
      rw [State.readSlot_resolve]
      split
      next hi => exact .inr hi.symm
      next => exact h.slots i }

/-- R31 (4): the pixel that uses up the budget ends the pass (R140). -/
theorem State.Inv.emitPixel (hmode : s.mode = .dec) (hphase : s.phase = .active) :
    s.emitPixel.Inv := by
  have hcause : s.cause = .none := h.causeNone (by simp [hphase])
  have hinput : s.input ≠ none := h.attached hmode (by simp [hphase])
  have hfailed : s.emitPixel.phase ≠ .failed := by
    rw [State.phase_emitPixel, hphase]
    split <;> nofun
  exact
    { h with
      budget := by simp [hphase]
      causeNone := fun _ => hcause
      failedCause := fun hp => absurd hp hfailed
      attached := fun _ _ => hinput
      idleMode := fun _ => hmode
      finished := by simp [hmode] }

/-- R254: the fault fails a decode pass by TRUNCATED_INPUT, its read position at the end of IN. -/
theorem State.Inv.faultEntry (hmode : s.mode = .dec) (hphase : s.phase = .active) :
    (s.faultEntry .truncatedInput).Inv :=
  { h with
    budget := nofun
    causeNone := fun hp => absurd rfl hp
    failedCause := fun _ => ⟨hmode, rfl⟩
    position := Nat.le_refl _
    attached := fun _ _ => h.attached hmode (by simp [hphase])
    idleMode := nofun
    finished := fun _ => nofun }

end Operations

/-! ## The invariant and the encode step

Between the count of the last pixel and Finish (R183, R184) the pass is ACTIVE with no budget left, so the
encoder's operations keep what the invariant says apart from the budget. -/

/-- What `State.Inv` says of a running encode pass, apart from its budget (`State.Inv.encodeCore`). -/
structure State.EncodeCore (s : State) : Prop where
  mode : s.mode = .enc
  slots : ∀ i, s.readSlot i = Config.initSlot ∨ slotHash (s.readSlot i) = i
  runBound : s.run.toNat ≤ 61
  causeNone : s.cause = .none
  position : s.inPos ≤ s.inBytes.length

theorem State.Inv.encodeCore {s : State} (h : s.Inv) (hmode : s.mode = .enc)
    (hphase : s.phase = .active) : s.EncodeCore :=
  { h with mode := hmode, causeNone := h.causeNone (by simp [hphase]) }

/-- START_ENCODE reads and writes no input, and the rest is at its start value (R222). -/
theorem State.Inv.encodeCore_startEncodePass {s : State} (h : s.Inv) (n : BitVec 64) :
    (s.startEncodePass n).EncodeCore where
  mode := rfl
  slots i := .inl (State.readSlot_of_initCache rfl i)
  runBound := Nat.zero_le _
  causeNone := rfl
  position := h.position

namespace State.EncodeCore
variable {s : State} (h : s.EncodeCore)
include h

/-- With budget left, a running encode pass meets the invariant. -/
theorem inv_of_active (hphase : s.phase = .active) (hbudget : s.remaining ≠ 0) : s.Inv :=
  { h with
    budget := fun _ => hbudget
    causeNone := fun _ => h.causeNone
    failedCause := by simp [hphase]
    attached := by simp [h.mode]
    idleMode := by simp [hphase]
    finished := by simp [hphase] }

/-- R184: Finish leaves PHASE DONE and no pending run, whatever the budget. -/
theorem inv_finish : s.finish.Inv where
  slots := by simpa using h.slots
  runBound := by simp
  budget := by simp
  causeNone := by simp [h.causeNone]
  failedCause := by simp
  position := by simpa using h.position
  attached := by simp [h.mode]
  idleMode := by simp
  finished := by simp

/-- R171: a run that reaches 62 is written at once, so at most 61 repeats stay pending. -/
theorem runBound_encodeBody (px : Pixel) : (s.encodeBody px).run.toNat ≤ 61 := by
  have hrun := h.runBound
  rw [State.run_encodeBody]
  split
  · split
    · exact Nat.zero_le _
    next hmax =>
      simp only [Config.runMax] at hmax
      bv_omega
  · exact Nat.zero_le _

/-- R31 (1): an encode step writes at most the slot its pixel hashes to (R181). -/
theorem slots_encodeBody (px : Pixel) (i : SlotIndex) :
    (s.encodeBody px).readSlot i = Config.initSlot ∨ slotHash ((s.encodeBody px).readSlot i) = i := by
  rw [State.readSlot_encodeBody]
  split
  next hi => exact .inr hi.2.symm
  next => exact h.slots i

theorem acceptPixel_encodeBody (px : Pixel) : ((s.encodeBody px).acceptPixel px).EncodeCore where
  mode := by simp [h.mode]
  slots := h.slots_encodeBody px
  runBound := h.runBound_encodeBody px
  causeNone := by simp [h.causeNone]
  position := by simpa [State.inBytes] using h.position

/-- R170, R183: an encode step ends with budget left, or finishes the pass. -/
theorem inv_encodeStep (hphase : s.phase = .active) (px : Pixel) : (s.encodeStep px).Inv := by
  have hcore := h.acceptPixel_encodeBody px
  simp only [State.encodeStep]
  split
  · exact hcore.inv_finish
  next hbudget => exact hcore.inv_of_active (by simpa using hphase) hbudget

end State.EncodeCore

/-! ## Every command keeps the invariant -/

/-- An opcode that decodes lies inside IN, so the read position may move past it (R57, R90). -/
theorem inPos_add_le_of_decodeOpcode {s : State} {i : Instr} {k : Nat}
    (hd : decodeOpcode (s.inBytes.drop s.inPos) = .ok (i, k)) : s.inPos + k ≤ s.inBytes.length := by
  obtain ⟨b0, payload, hbytes, hk, -⟩ := decodeOpcode_cases hd
  rw [hbytes] at hd
  have hpayload := length_of_decodeOpcode hd
  have hlength := congrArg List.length hbytes
  simp only [payloadLength, List.length_drop, List.length_cons] at hpayload hlength
  omega

/-- The repeats that a RUN of the stream queues are at most 61 (R31 (2), R85, R138). -/
theorem toNat_queued_le {bytes : List Byte} {len k : Nat}
    (hd : decodeOpcode bytes = .ok (.run len, k)) : (BitVec.ofNat 6 (len - 1)).toNat ≤ 61 := by
  have := run_bounds_of_decodeOpcode hd
  rw [BitVec.toNat_ofNat]
  omega

theorem CommandEffect.inv {s t : State} {c : Request} (heffect : CommandEffect s c t) (h : s.Inv) :
    t.Inv := by
  have hrun := h.runBound
  cases heffect with
  | startDecode => exact (State.Inv.startDecodePass s _ _).respond _
  | startEncode _ hn => exact ((h.encodeCore_startEncodePass _).inv_of_active rfl hn).respond _
  | startEncodeZero => exact (h.encodeCore_startEncodePass _).inv_finish.respond _
  | pullQueued _ hm hp hr => exact (h.withRun hm (by bv_omega)).emitPixel hm hp
  | pullResolved _ hm hp _ _ _ hd _ p =>
    exact ((h.advance (inPos_add_le_of_decodeOpcode hd)).resolve p).emitPixel hm hp
  | pullRun _ hm hp _ _ _ hd =>
    exact ((h.advance (inPos_add_le_of_decodeOpcode hd)).withRun hm (toNat_queued_le hd)).emitPixel hm hp
  | pullFault _ hm hp => exact h.faultEntry hm hp
  | pixel _ hm hp => exact ((h.encodeCore hm hp).inv_encodeStep hp _).respond _
  | finish _ hm hp => exact (h.encodeCore hm hp).inv_finish.respond _
  | answer => exact h.respond _

theorem step_keeps_inv {s t : State} (h : s.Inv) (hstep : step s = .next t) : t.Inv := by
  obtain ⟨-, rfl⟩ | ⟨c, rest, -, heffect⟩ := step_cases hstep
  · exact h
  · exact heffect.inv (h.issue rest)

/-- Settles O41: the rest step changes nothing, and each effect of a command keeps R31. -/
theorem stepKeepsInvariant : Obligations.StepKeepsInvariant :=
  ⟨fun _ _ => step_keeps_inv, rfl⟩

/-- Settles O40: the values of R36 meet each clause of R31. -/
theorem resetMeetsInvariant : Obligations.ResetMeetsInvariant := State.Inv.reset

/-- Settles O39: the slots read the pass-start cache, the other elements are the values of R36. -/
theorem resetState : Obligations.ResetState :=
  ⟨State.readSlot_of_initCache rfl, rfl, rfl, rfl, rfl, rfl, rfl, rfl, rfl, rfl⟩

/-! ## MODE and CAUSE -/

/-- Settles O44: MODE after each effect of a command (R25). -/
theorem onlyStartCommandsWriteMode : Obligations.OnlyStartCommandsWriteMode := by
  intro s t c rest hcommands hstep
  cases commandEffect_of_step hcommands hstep with
  | startDecode hc => simp [hc]
  | startEncode hc => simp [hc]
  | startEncodeZero hc => simp [hc]
  | pullQueued hc => simp [hc]
  | pullResolved hc => simp [hc]
  | pullRun hc => simp [hc]
  | pullFault hc => simp [hc]
  | pixel hc => simp [hc]
  | finish hc => simp [hc]
  | answer _ h1 h2 => exact ⟨fun hc => absurd hc h1, fun hc => absurd hc h2, fun _ _ => rfl⟩

/-- What a command does to CAUSE (R26, R254). -/
theorem CommandEffect.cause_cases {s t : State} {c : Request} (heffect : CommandEffect s c t) :
    t.cause = s.cause ∨ t.cause = .none ∨ (t.cause = .truncatedInput ∧ t.phase = .failed) := by
  cases heffect with
  | startDecode => exact .inr (.inl rfl)
  | startEncode => exact .inr (.inl rfl)
  | startEncodeZero => exact .inr (.inl (by simp))
  | pullQueued => exact .inl rfl
  | pullResolved => exact .inl rfl
  | pullRun => exact .inl rfl
  | pullFault => exact .inr (.inr ⟨rfl, rfl⟩)
  | pixel => exact .inl (by simp)
  | finish => exact .inl (by simp)
  | answer => exact .inl rfl

/-- Settles O45: the rest step keeps CAUSE, and a command does one of the three. -/
theorem reservedCausesAreNeverSet : Obligations.ReservedCausesAreNeverSet := by
  intro s t hstep
  obtain ⟨-, rfl⟩ | ⟨c, rest, -, heffect⟩ := step_cases hstep
  · exact .inl rfl
  · exact heffect.cause_cases

/-! ## OUT -/

/-- Finish only appends to OUT (R184). -/
theorem State.out_prefix_finish (s : State) : s.out <+: s.finish.out := by
  rw [State.out_finish, State.out_flushRun, List.append_assoc]
  exact List.prefix_append _ _

/-- An encode step only appends to OUT (R59, R170, R183). -/
theorem State.out_prefix_encodeStep (s : State) (px : Pixel) : s.out <+: (s.encodeStep px).out := by
  have hbody : s.out <+: (s.encodeBody px).out := by
    rw [State.out_encodeBody]; exact List.prefix_append _ _
  rw [State.out_encodeStep]
  split
  · exact hbody.trans (State.out_prefix_finish ((s.encodeBody px).acceptPixel px))
  · exact hbody

/-- Settles O46: only the encode step and Finish write OUT, both by appending, both in MODE ENC. -/
theorem outIsAppendOnly : Obligations.OutIsAppendOnly := by
  intro s t c rest hcommands hstep hcode
  cases commandEffect_of_step hcommands hstep with
  | startDecode => exact ⟨List.prefix_refl _, fun _ => rfl⟩
  | startEncode hc => exact absurd hc hcode
  | startEncodeZero hc => exact absurd hc hcode
  | pullQueued => exact ⟨List.prefix_refl _, fun _ => rfl⟩
  | pullResolved => exact ⟨List.prefix_refl _, fun _ => rfl⟩
  | pullRun => exact ⟨List.prefix_refl _, fun _ => rfl⟩
  | pullFault => exact ⟨List.prefix_refl _, fun _ => rfl⟩
  | pixel _ hm =>
    exact ⟨State.out_prefix_encodeStep (s.withCommands rest) _, fun hdec => nomatch hdec.symm.trans hm⟩
  | finish _ hm =>
    exact ⟨State.out_prefix_finish (s.withCommands rest), fun hdec => nomatch hdec.symm.trans hm⟩
  | answer => exact ⟨List.prefix_refl _, fun _ => rfl⟩

/-! ## IN -/

/-- A command but START_DECODE keeps IN, and IN_POS stays, moves past an opcode, or goes to the end of IN,
which by the invariant is not behind it (R28, R38, R254). -/
theorem CommandEffect.input_only_read {s t : State} {c : Request} (heffect : CommandEffect s c t)
    (hposition : s.inPos ≤ s.inBytes.length) (hcode : c.code ≠ 0x01) :
    t.input = s.input ∧ s.inPos ≤ t.inPos := by
  cases heffect with
  | startDecode hc => exact absurd hc hcode
  | startEncode => exact ⟨rfl, Nat.le_refl _⟩
  | startEncodeZero => simp
  | pullQueued => exact ⟨rfl, Nat.le_refl _⟩
  | pullResolved => exact ⟨rfl, Nat.le_add_right _ _⟩
  | pullRun => exact ⟨rfl, Nat.le_add_right _ _⟩
  | pullFault => exact ⟨rfl, hposition⟩
  | pixel => simp
  | finish => simp
  | answer => exact ⟨rfl, Nat.le_refl _⟩

/-- Settles O47: the last bound is the invariant's, which the step keeps. -/
theorem inputIsOnlyRead : Obligations.InputIsOnlyRead := by
  intro s t c rest hinv hcommands hstep hcode
  obtain ⟨hinput, hforward⟩ :=
    (commandEffect_of_step hcommands hstep).input_only_read hinv.position hcode
  exact ⟨hinput, hforward, (step_keeps_inv hinv hstep).position⟩

/-! ## REMAINING -/

/-- A response that outputs a pixel, or accepts the pixel of the command (R23). -/
def Response.Counted (c : Request) (x : Response) : Prop :=
  (∃ p, x = .pixel p) ∨ (c.code = 0x04 ∧ x = .ok)

/-- Outside a pass start a command gives one response; where it is counted the budget is one lower, and
elsewhere it is kept (R23, R130, R183). -/
theorem CommandEffect.remaining_counted {s t : State} {c : Request} (heffect : CommandEffect s c t)
    (h1 : c.code ≠ 0x01) (h2 : c.code ≠ 0x02) :
    ∃ x, t.responses = s.responses ++ [x] ∧
      ((x.Counted c ∧ s.phase = .active ∧ t.remaining = s.remaining - 1) ∨
       (¬ x.Counted c ∧ t.remaining = s.remaining)) := by
  cases heffect with
  | startDecode hc => exact absurd hc h1
  | startEncode hc => exact absurd hc h2
  | startEncodeZero hc => exact absurd hc h2
  | pullQueued _ _ hp => exact ⟨_, rfl, .inl ⟨.inl ⟨_, rfl⟩, hp, rfl⟩⟩
  | pullResolved _ _ hp => exact ⟨_, rfl, .inl ⟨.inl ⟨_, rfl⟩, hp, rfl⟩⟩
  | pullRun _ _ hp => exact ⟨_, rfl, .inl ⟨.inl ⟨_, rfl⟩, hp, rfl⟩⟩
  | pullFault => exact ⟨_, rfl, .inr ⟨by simp [Response.Counted], rfl⟩⟩
  | pixel hc _ hp => exact ⟨.ok, by simp, .inl ⟨.inr ⟨hc, rfl⟩, hp, by simp⟩⟩
  | finish hc => exact ⟨.ok, by simp, .inr ⟨by simp [Response.Counted, hc], by simp⟩⟩
  | answer x _ _ hpix _ hok =>
    refine ⟨x, rfl, .inr ⟨?_, rfl⟩⟩
    rintro (⟨p, hx⟩ | ⟨hc, hx⟩)
    · exact hpix p hx
    · exact hok hc hx

/-- Settles O48: a counted response is given in an ACTIVE pass, which by the invariant has budget left. -/
theorem remainingCountsPixels : Obligations.RemainingCountsPixels := by
  intro s t c rest hinv hcommands hstep h1 h2 counted
  obtain ⟨x, hresponses, hx⟩ := (commandEffect_of_step hcommands hstep).remaining_counted h1 h2
  have hcounted : counted ↔ x.Counted c := by
    simp [counted, Response.Counted, hresponses]
  rw [hcounted]
  obtain ⟨hcount, hactive, hremaining⟩ | ⟨hcount, hremaining⟩ := hx
  · have hbudget : s.remaining ≠ 0 := hinv.budget hactive
    have hlower : t.remaining.toNat + 1 = s.remaining.toNat := by
      rw [hremaining, State.remaining_withCommands]; bv_omega
    exact ⟨fun _ => hlower, fun hn => absurd hcount hn⟩
  · exact ⟨fun hc => absurd hc hcount, fun _ => hremaining⟩

end Sys2Proof.Machine
end

section
/-! Proofs of family 20_memory.md (R51 to R56): the host's header codec. Decode answers a header exactly
where it is valid and the bytes begin with its encoding (`decodeHeader_eq_ok_iff`), and fails with
INVALID_HEADER only. -/

namespace Sys2Proof.Machine

/-! ## The fields of a header -/

/-- The bytes of a u32, joined big-endian, are the u32 (R56). -/
theorem append_bytes_of_u32 (w : BitVec 32) :
    w.extractLsb' 24 8 ++ w.extractLsb' 16 8 ++ w.extractLsb' 8 8 ++ w.extractLsb' 0 8 = w := by
  rw [BitVec.extractLsb'_append_extractLsb'_eq_extractLsb' (by rfl),
    BitVec.extractLsb'_append_extractLsb'_eq_extractLsb' (by rfl),
    BitVec.extractLsb'_append_extractLsb'_eq_extractLsb' (by rfl)]
  exact BitVec.extractLsb'_eq_self

/-- Four bytes come back from the u32 they make. The word is laid out as a pixel's is (R11, R56). -/
theorem bytesOfU32_append (b0 b1 b2 b3 : Byte) :
    bytesOfU32 (b0 ++ b1 ++ b2 ++ b3) = [b0, b1, b2, b3] :=
  congrArg (fun p : Pixel => [p.r, p.g, p.b, p.a]) (Pixel.unpack_pack ⟨b0, b1, b2, b3⟩)

/-- A byte names a channel tag exactly where it is the tag's byte (R51, R52). -/
theorem channelTagOf_eq_some_iff {b : Byte} {c : ChannelTag} :
    channelTagOf b = some c ↔ b = c.byte := by
  cases c with
  | rgb => simp [channelTagOf, ChannelTag.byte]
  | rgba => simp +contextual [channelTagOf, ChannelTag.byte, ite_eq_iff]

/-- A byte names a colorspace tag exactly where it is the tag's byte (R51, R52). -/
theorem colorspaceTagOf_eq_some_iff {b : Byte} {k : ColorspaceTag} :
    colorspaceTagOf b = some k ↔ b = k.byte := by
  cases k with
  | srgb => simp [colorspaceTagOf, ColorspaceTag.byte]
  | linear => simp +contextual [colorspaceTagOf, ColorspaceTag.byte, ite_eq_iff]

/-- A valid header has two nonzero dimensions (R51). -/
theorem Header.valid_iff {h : Header} : h.valid = true ↔ h.width ≠ 0 ∧ h.height ≠ 0 := by
  simp [Header.valid]

/-! ## The check of the 14 bytes -/

/-- The check accepts what it is given for a valid header (R52). -/
theorem checkHeader_of_valid {h : Header} (hv : h.valid = true) :
    checkHeader headerMagic h.width h.height h.channels.byte h.colorspace.byte = .ok h := by
  rw [checkHeader, if_pos ⟨rfl, Header.valid_iff.mp hv⟩, channelTagOf_eq_some_iff.mpr rfl,
    colorspaceTagOf_eq_some_iff.mpr rfl]

/-- One inversion of the check: it answers a valid header whose fields it was given, or INVALID_HEADER
(R52, R253). -/
theorem checkHeader_cases (magic : List Byte) (width height : BitVec 32) (ch cs : Byte) :
    (∃ h : Header, checkHeader magic width height ch cs = .ok h ∧ h.valid = true ∧ magic = headerMagic ∧
      width = h.width ∧ height = h.height ∧ ch = h.channels.byte ∧ cs = h.colorspace.byte) ∨
    checkHeader magic width height ch cs = .error .invalidHeader := by
  unfold checkHeader
  split
  case isTrue hfields =>
    obtain ⟨hmagic, hdims⟩ := hfields
    split
    case h_1 c k hc hk =>
      exact .inl ⟨⟨width, height, c, k⟩, rfl, Header.valid_iff.mpr hdims, hmagic, rfl, rfl,
        channelTagOf_eq_some_iff.mp hc, colorspaceTagOf_eq_some_iff.mp hk⟩
    case h_2 => exact .inr rfl
  case isFalse => exact .inr rfl

/-! ## The codec -/

/-- Header encode writes 4 + 4 + 4 + 2 bytes, of a valid header or not (R51). -/
theorem length_encodeHeader (h : Header) : (encodeHeader h).length = 14 := rfl

/-- Decode of an encoding's bytes is the check of the header's own fields (R52, R56). -/
theorem decodeHeader_encodeHeader_append (h : Header) (rest : List Byte) :
    decodeHeader (encodeHeader h ++ rest) =
      (checkHeader headerMagic h.width h.height h.channels.byte h.colorspace.byte).map (·, rest) := by
  conv_rhs => rw [← append_bytes_of_u32 h.width, ← append_bytes_of_u32 h.height]
  rfl

/-- Decode gives a valid header back, with the bytes after its encoding (R52). -/
theorem decodeHeader_of_valid {h : Header} (hv : h.valid = true) (rest : List Byte) :
    decodeHeader (encodeHeader h ++ rest) = .ok (h, rest) := by
  rw [decodeHeader_encodeHeader_append, checkHeader_of_valid hv]
  rfl

/-- One inversion of decode: the bytes begin with the encoding of the valid header it answers, or it
answers INVALID_HEADER, as it does for fewer than 14 bytes (R52, R253). -/
theorem decodeHeader_cases (bytes : List Byte) :
    (∃ h rest, decodeHeader bytes = .ok (h, rest) ∧ h.valid = true ∧ bytes = encodeHeader h ++ rest) ∨
    decodeHeader bytes = .error .invalidHeader := by
  unfold decodeHeader
  split
  case h_1 m0 m1 m2 m3 w0 w1 w2 w3 h0 h1 h2 h3 ch cs rest =>
    obtain ⟨h, hok, hvalid, hmagic, hwidth, hheight, rfl, rfl⟩ | herror :=
      checkHeader_cases [m0, m1, m2, m3] (w0 ++ w1 ++ w2 ++ w3) (h0 ++ h1 ++ h2 ++ h3) ch cs
    · refine .inl ⟨h, rest, by rw [hok]; rfl, hvalid, ?_⟩
      rw [encodeHeader, ← hmagic, ← hwidth, ← hheight, bytesOfU32_append, bytesOfU32_append]
      rfl
    · exact .inr (by rw [herror]; rfl)
  case h_2 => exact .inr rfl

/-- Settles O54. -/
theorem headerRoundTrip : Obligations.HeaderRoundTrip :=
  fun h rest hvalid => ⟨length_encodeHeader h, decodeHeader_of_valid hvalid rest⟩

/-- Settles O55: bytes that begin with a valid header's encoding are accepted, so rejected bytes do not. -/
theorem headerRejection : Obligations.HeaderRejection := by
  intro bytes
  refine (decodeHeader_cases bytes).imp_right fun herror => ⟨herror, ?_⟩
  rintro h rest hvalid rfl
  exact nomatch herror.symm.trans (decodeHeader_of_valid hvalid rest)

/-! ## The pixel count -/

/-- A product of two nonzero u32 numbers lies in 1..(2^32-1)^2 (R53). -/
theorem u32_product_bounds {w h : BitVec 32} (hw : w ≠ 0) (hh : h ≠ 0) :
    1 ≤ w.toNat * h.toNat ∧ w.toNat * h.toNat ≤ (2 ^ 32 - 1) ^ 2 := by
  have hwpos : 0 < w.toNat := by bv_omega
  have hhpos : 0 < h.toNat := by bv_omega
  refine ⟨Nat.mul_pos hwpos hhpos, ?_⟩
  rw [Nat.pow_two]
  exact Nat.mul_le_mul (Nat.le_pred_of_lt w.isLt) (Nat.le_pred_of_lt h.isLt)

/-- Settles O56: the product is below 2^64, so the count's 64 bits hold it. -/
theorem pixelCountIsExact : Obligations.PixelCountIsExact := by
  intro h hvalid
  obtain ⟨hwidth, hheight⟩ := Header.valid_iff.mp hvalid
  have hbounds := u32_product_bounds hwidth hheight
  have hexact : h.pixelCount.toNat = h.width.toNat * h.height.toNat := by
    rw [Header.pixelCount, BitVec.toNat_ofNat, Nat.mod_eq_of_lt (by omega)]
  exact ⟨hexact, hexact ▸ hbounds⟩

end Sys2Proof.Machine
end

section
/-! Proofs of family 30_encoding.md (R80 to R93, R220): the first byte's ranges, the decoder on each layout
and its way back, the assembler's bytes, and the decoder's walk over the end marker. -/

namespace Sys2Proof

/-! ## Fields of a byte -/

/-- Two fields side by side as a number (R9). -/
theorem toNat_append_eq_add {m n : Nat} (x : BitVec m) (y : BitVec n) :
    (x ++ y).toNat = x.toNat * 2 ^ n + y.toNat := by
  rw [BitVec.toNat_append, ← Nat.shiftLeft_add_eq_or_of_lt y.isLt, Nat.shiftLeft_eq]

/-- A byte of a 2-bit tag and a 6-bit field as a number (R82, R84, R85). -/
theorem toNat_tag_append (t : BitVec 2) (f : BitVec 6) :
    (t ++ f : Byte).toNat = t.toNat * 64 + f.toNat :=
  toNat_append_eq_add t f

/-- A byte of a 2-bit tag and three 2-bit fields as a number (R83). -/
theorem toNat_tag_append_three (t x y z : BitVec 2) :
    (t ++ x ++ y ++ z : Byte).toNat = t.toNat * 64 + x.toNat * 16 + y.toNat * 4 + z.toNat := by
  have h := toNat_append_eq_add (t ++ x ++ y) z
  rw [toNat_append_eq_add (t ++ x) y, toNat_append_eq_add t x] at h
  omega

/-- A byte of two 4-bit fields as a number (R84). -/
theorem toNat_nibbles_append (x y : BitVec 4) : (x ++ y : Byte).toNat = x.toNat * 16 + y.toNat :=
  toNat_append_eq_add x y

/-- A field cut out of a vector as a number. -/
theorem toNat_extractLsb' {w : Nat} (b : BitVec w) (start len : Nat) :
    (b.extractLsb' start len).toNat = b.toNat / 2 ^ start % 2 ^ len := by
  rw [BitVec.extractLsb'_toNat, Nat.shiftRight_eq_div_pow]

/-- Putting the bias back gives the field (R83, R84); `toNat_biasedField` is the other way round. -/
theorem biasedField_sub_bias {n : Nat} (bias : Int) (x : BitVec n) :
    biasedField n bias (x.toNat - bias) = x := by
  simp [biasedField]

/-! ## The first byte -/

/-- The first byte at which a class begins (R80). -/
def OpKind.firstByte : OpKind → Nat
  | .index => 0x00
  | .diff => 0x40
  | .luma => 0x80
  | .run => 0xC0
  | .rgb => 0xFE
  | .rgba => 0xFF

/-- The first byte at which a class ends (R80). -/
def OpKind.lastByte : OpKind → Nat
  | .index => 0x3F
  | .diff => 0x7F
  | .luma => 0xBF
  | .run => 0xFD
  | .rgb => 0xFE
  | .rgba => 0xFF

/-- The first byte is of a class exactly where it lies in the class's range (R80). -/
theorem classify_eq_iff {b0 : Byte} {k : OpKind} :
    classify b0 = k ↔ k.firstByte ≤ b0.toNat ∧ b0.toNat ≤ k.lastByte := by
  have hlt := b0.isLt
  simp only [classify, ← BitVec.toNat_inj, toNat_extractLsb', BitVec.toNat_ofNat, BitVec.ofNat_eq_ofNat]
  split_ifs <;> cases k <;>
    simp only [OpKind.firstByte, OpKind.lastByte, reduceCtorEq, true_iff, false_iff] <;> omega

/-- RGB and RGBA have one first byte each (R81, R86, R87). -/
theorem eq_firstByte_of_classify {b0 : Byte} {k : OpKind} (h : classify b0 = k)
    (hk : k.firstByte = k.lastByte) : b0 = BitVec.ofNat 8 k.firstByte := by
  obtain ⟨hfirst, hlast⟩ := classify_eq_iff.mp h
  rw [Nat.le_antisymm hfirst (hk ▸ hlast), BitVec.ofNat_toNat, BitVec.setWidth_eq]

/-- A class has as many first bytes as its range is long (R90). -/
theorem countP_classify (k : OpKind) :
    (List.range 256).countP (fun n => classify (BitVec.ofNat 8 n) = k) =
      k.lastByte + 1 - k.firstByte := by
  have hlast : k.lastByte < 256 := by cases k <;> decide
  have hrange : {n ∈ Finset.range 256 | classify (BitVec.ofNat 8 n) = k} =
      Finset.Icc k.firstByte k.lastByte := by
    ext n
    simp only [Finset.mem_filter, Finset.mem_range, Finset.mem_Icc, classify_eq_iff, BitVec.toNat_ofNat]
    omega
  rw [← Nat.card_Icc, ← hrange, ← Nat.count_eq_card_filter_range]
  rfl

/-- Settles O2: each row of the table is one class's range. -/
theorem firstByteGivesOpcodeAndLength : Obligations.FirstByteGivesOpcodeAndLength := by
  intro b0
  have key (k : OpKind) (h : k.firstByte ≤ b0.toNat ∧ b0.toNat ≤ k.lastByte) :
      classify b0 = k ∧ (classify b0).length = k.length := by
    rw [classify_eq_iff.mpr h]
    exact ⟨rfl, rfl⟩
  exact ⟨fun h => key .index ⟨Nat.zero_le _, h⟩, key .diff, key .luma, key .run,
    fun h => key .rgb ⟨h.ge, h.le⟩, fun h => key .rgba ⟨h.ge, h.le⟩⟩

/-- Settles O4: the split is the length of each class's range, and the payload's length alone decides. -/
theorem noByteSequenceIsMalformed : Obligations.NoByteSequenceIsMalformed := by
  refine ⟨⟨countP_classify _, countP_classify _, countP_classify _, countP_classify _,
    countP_classify _, countP_classify _⟩, rfl,
    fun b0 payload => ⟨fun h => ?_, decodeOpcode_short b0 payload⟩⟩
  obtain ⟨i, hi⟩ := decodeOpcode_total b0 payload h
  exact ⟨i, isOpcode_of_decodeOpcode hi, hi⟩

/-! ## The decoder on each layout -/

theorem decodeOpcode_of_index {b0 : Byte} (h : classify b0 = .index) (payload : List Byte) :
    decodeOpcode (b0 :: payload) = .ok (indexFields b0, 1) := by
  simp only [decodeOpcode, h]

theorem decodeOpcode_of_diff {b0 : Byte} (h : classify b0 = .diff) (payload : List Byte) :
    decodeOpcode (b0 :: payload) = .ok (diffFields b0, 1) := by
  simp only [decodeOpcode, h]

theorem decodeOpcode_of_luma {b0 : Byte} (h : classify b0 = .luma) (b1 : Byte) (rest : List Byte) :
    decodeOpcode (b0 :: b1 :: rest) = .ok (lumaFields b0 b1, 2) := by
  simp only [decodeOpcode, h]

theorem decodeOpcode_of_run {b0 : Byte} (h : classify b0 = .run) (payload : List Byte) :
    decodeOpcode (b0 :: payload) = .ok (runFields b0, 1) := by
  simp only [decodeOpcode, h]

/-- The 6-bit field after a tag (R82, R84, R85). -/
theorem extractLsb'_tag_append (t : BitVec 2) (f : BitVec 6) : (t ++ f : Byte).extractLsb' 0 6 = f :=
  BitVec.extractLsb'_append_eq_right

/-- INDEX's layout (R82). -/
theorem decodeOpcode_index (i : SlotIndex) (rest : List Byte) :
    decodeOpcode ((0b00#2 ++ i) :: rest) = .ok (.index i, 1) := by
  have hclass : classify (0b00#2 ++ i) = .index := by
    rw [classify_eq_iff, toNat_tag_append, OpKind.firstByte, OpKind.lastByte]
    bv_omega
  rw [decodeOpcode_of_index hclass, indexFields, extractLsb'_tag_append]

/-- DIFF's layout (R83). -/
theorem decodeOpcode_diff (x y z : BitVec 2) (rest : List Byte) :
    decodeOpcode ((0b01#2 ++ x ++ y ++ z) :: rest) =
      .ok (.diff ((x.toNat : Int) - 2) ((y.toNat : Int) - 2) ((z.toNat : Int) - 2), 1) := by
  have hnum := toNat_tag_append_three 0b01#2 x y z
  have hclass : classify (0b01#2 ++ x ++ y ++ z) = .diff := by
    rw [classify_eq_iff, hnum, OpKind.firstByte, OpKind.lastByte]
    bv_omega
  have hx : (0b01#2 ++ x ++ y ++ z : Byte).extractLsb' 4 2 = x :=
    BitVec.eq_of_toNat_eq (by rw [toNat_extractLsb', hnum]; bv_omega)
  have hy : (0b01#2 ++ x ++ y ++ z : Byte).extractLsb' 2 2 = y :=
    BitVec.eq_of_toNat_eq (by rw [toNat_extractLsb', hnum]; bv_omega)
  have hz : (0b01#2 ++ x ++ y ++ z : Byte).extractLsb' 0 2 = z := BitVec.extractLsb'_append_eq_right
  rw [decodeOpcode_of_diff hclass, diffFields, hx, hy, hz]
  rfl

/-- LUMA's layout (R84). -/
theorem decodeOpcode_luma (g : BitVec 6) (x y : BitVec 4) (rest : List Byte) :
    decodeOpcode ((0b10#2 ++ g) :: (x ++ y) :: rest) =
      .ok (.luma ((g.toNat : Int) - 32) ((x.toNat : Int) - 8) ((y.toNat : Int) - 8), 2) := by
  have hclass : classify (0b10#2 ++ g) = .luma := by
    rw [classify_eq_iff, toNat_tag_append, OpKind.firstByte, OpKind.lastByte]
    bv_omega
  have hhi : (x ++ y : Byte).extractLsb' 4 4 = x := BitVec.extractLsb'_append_eq_left
  have hlo : (x ++ y : Byte).extractLsb' 0 4 = y := BitVec.extractLsb'_append_eq_right
  rw [decodeOpcode_of_luma hclass, lumaFields, extractLsb'_tag_append, hhi, hlo]
  rfl

/-- RUN's layout; the fields 62 and 63 are RGB's and RGBA's first bytes (R81, R85). -/
theorem decodeOpcode_run (l : BitVec 6) (h : l.toNat ≤ 61) (rest : List Byte) :
    decodeOpcode ((0b11#2 ++ l) :: rest) = .ok (.run (l.toNat + 1), 1) := by
  have hclass : classify (0b11#2 ++ l) = .run := by
    rw [classify_eq_iff, toNat_tag_append, OpKind.firstByte, OpKind.lastByte]
    bv_omega
  rw [decodeOpcode_of_run hclass, runFields, extractLsb'_tag_append]

/-- RGB's layout (R86). -/
theorem decodeOpcode_rgb (r g b : Byte) (rest : List Byte) :
    decodeOpcode (0xFE :: r :: g :: b :: rest) = .ok (.rgb r g b, 4) := rfl

/-- RGBA's layout (R87). -/
theorem decodeOpcode_rgba (r g b a : Byte) (rest : List Byte) :
    decodeOpcode (0xFF :: r :: g :: b :: a :: rest) = .ok (.rgba r g b a, 5) := rfl

/-- Settles O3, one layout at a time. -/
theorem opcodeFieldLayouts : Obligations.OpcodeFieldLayouts :=
  fun rest => ⟨fun i => decodeOpcode_index i rest, fun x y z => decodeOpcode_diff x y z rest,
    fun g x y => decodeOpcode_luma g x y rest, fun l h => decodeOpcode_run l h rest,
    fun r g b => decodeOpcode_rgb r g b rest, fun r g b a => decodeOpcode_rgba r g b a rest⟩

/-- Settles O1: fourteen closed evaluations. -/
theorem specWordsDecode : Obligations.SpecWordsDecode := by
  unfold Obligations.SpecWordsDecode
  decide

/-! ## Well-formed operands -/

theorem wf_diff_iff {dr dg db : Int} : (Instr.diff dr dg db).wf = true ↔
    (-2 ≤ dr ∧ dr ≤ 1) ∧ (-2 ≤ dg ∧ dg ≤ 1) ∧ (-2 ≤ db ∧ db ≤ 1) := by
  simp only [Instr.wf, Bool.and_eq_true, decide_eq_true_eq, and_assoc]

theorem wf_luma_iff {dg drDg dbDg : Int} : (Instr.luma dg drDg dbDg).wf = true ↔
    (-32 ≤ dg ∧ dg ≤ 31) ∧ (-8 ≤ drDg ∧ drDg ≤ 7) ∧ (-8 ≤ dbDg ∧ dbDg ≤ 7) := by
  simp only [Instr.wf, Bool.and_eq_true, decide_eq_true_eq, and_assoc]

theorem wf_run_iff {len : Nat} : (Instr.run len).wf = true ↔ 1 ≤ len ∧ len ≤ 62 :=
  decide_eq_true_iff

theorem wf_reservedCommand_iff {code : Byte} :
    (Instr.reservedCommand code).wf = true ↔ code = 0 ∨ 7 ≤ code.toNat :=
  decide_eq_true_iff

/-- A DIFF operand in range is its field less the bias (R83). -/
theorem toNat_diffField {d : Int} (h : -2 ≤ d ∧ d ≤ 1) :
    ((biasedField 2 Config.diffBias d).toNat : Int) = d + 2 :=
  toNat_biasedField (by unfold Config.diffBias; omega) (by unfold Config.diffBias; omega)

/-- LUMA's green operand in range is its field less the bias (R84). -/
theorem toNat_lumaGreenField {d : Int} (h : -32 ≤ d ∧ d ≤ 31) :
    ((biasedField 6 Config.lumaGreenBias d).toNat : Int) = d + 32 :=
  toNat_biasedField (by unfold Config.lumaGreenBias; omega) (by unfold Config.lumaGreenBias; omega)

/-- LUMA's relative operand in range is its field less the bias (R84). -/
theorem toNat_lumaRelField {d : Int} (h : -8 ≤ d ∧ d ≤ 7) :
    ((biasedField 4 Config.lumaRelBias d).toNat : Int) = d + 8 :=
  toNat_biasedField (by unfold Config.lumaRelBias; omega) (by unfold Config.lumaRelBias; omega)

/-- RUN's field is one less than a length in range (R85). -/
theorem toNat_runField {len : Nat} (h : 1 ≤ len ∧ len ≤ 62) :
    (BitVec.ofNat 6 (len - 1)).toNat + 1 = len := by
  rw [BitVec.toNat_ofNat]
  omega

/-! ## Decode of encode -/

/-- A well-formed opcode comes back from its bytes, whatever follows them (R82 to R88). -/
theorem decodeOpcode_encodeStream {i : Instr} (hwf : i.wf = true) (hop : i.isOpcode = true)
    (rest : List Byte) : decodeOpcode (encodeStream i ++ rest) = .ok (i, i.byteLength) := by
  cases i <;> simp only [Instr.isOpcode, Bool.false_eq_true] at hop
  case index i => exact decodeOpcode_index i rest
  case diff dr dg db =>
    obtain ⟨hr, hg, hb⟩ := wf_diff_iff.mp hwf
    refine (decodeOpcode_diff _ _ _ rest).trans ?_
    simp only [toNat_diffField hr, toNat_diffField hg, toNat_diffField hb, add_sub_cancel_right,
      Instr.byteLength]
  case luma dg drDg dbDg =>
    obtain ⟨hg, hr, hb⟩ := wf_luma_iff.mp hwf
    refine (decodeOpcode_luma _ _ _ rest).trans ?_
    simp only [toNat_lumaGreenField hg, toNat_lumaRelField hr, toNat_lumaRelField hb,
      add_sub_cancel_right, Instr.byteLength]
  case run len =>
    have hlen := wf_run_iff.mp hwf
    have hfield := toNat_runField hlen
    refine (decodeOpcode_run _ (by omega) rest).trans ?_
    rw [hfield]
    rfl
  case rgb r g b => exact decodeOpcode_rgb r g b rest
  case rgba r g b a => exact decodeOpcode_rgba r g b a rest

/-- A code outside 0x01..0x06 is reserved (R227). -/
theorem decodeCommand_reserved {c : Request} (h : c.code = 0 ∨ 7 ≤ c.code.toNat) :
    decodeCommand c = .reservedCommand c.code := by
  unfold decodeCommand
  iterate 6 rw [if_neg (by bv_omega)]

/-- A well-formed command comes back from its request (R220). -/
theorem decodeCommand_encodeCommand {i : Instr} (hwf : i.wf = true) (hcmd : i.isCommand = true) :
    ∃ c, encodeCommand i = some c ∧ decodeCommand c = i := by
  cases i <;> simp only [Instr.isCommand, Bool.false_eq_true] at hcmd
  case startDecode => exact ⟨_, rfl, rfl⟩
  case startEncode => exact ⟨_, rfl, rfl⟩
  case decodeNext => exact ⟨_, rfl, rfl⟩
  case encodePixel p => exact ⟨_, rfl, congrArg Instr.encodePixel p.unpack_pack⟩
  case encodeFinish => exact ⟨_, rfl, rfl⟩
  case readReg => exact ⟨_, rfl, rfl⟩
  case reservedCommand => exact ⟨_, rfl, decodeCommand_reserved (wf_reservedCommand_iff.mp hwf)⟩

/-- Settles O5: the two code spaces apart. -/
theorem decodeOfEncodeIsIdentity : Obligations.DecodeOfEncodeIsIdentity :=
  fun _ hwf => ⟨decodeOpcode_encodeStream hwf, decodeCommand_encodeCommand hwf⟩

/-! ## Encode of decode -/

/-- A byte is its tag and its 6-bit field (R82, R84, R85). -/
theorem tag_append_field {b : Byte} {t : BitVec 2} (h : b.toNat / 64 = t.toNat) :
    t ++ b.extractLsb' 0 6 = b := by
  apply BitVec.eq_of_toNat_eq
  rw [toNat_tag_append, toNat_extractLsb']
  omega

/-- A byte is its tag and its three 2-bit fields (R83). -/
theorem tag_append_three_fields {b : Byte} {t : BitVec 2} (h : b.toNat / 64 = t.toNat) :
    t ++ b.extractLsb' 4 2 ++ b.extractLsb' 2 2 ++ b.extractLsb' 0 2 = b := by
  apply BitVec.eq_of_toNat_eq
  rw [toNat_tag_append_three, toNat_extractLsb', toNat_extractLsb', toNat_extractLsb']
  omega

/-- A byte is its two 4-bit fields (R84). -/
theorem nibbles_append (b : Byte) : b.extractLsb' 4 4 ++ b.extractLsb' 0 4 = b := by
  apply BitVec.eq_of_toNat_eq
  rw [toNat_nibbles_append, toNat_extractLsb', toNat_extractLsb']
  omega

/-- The 2-bit tag of a class (R81); RGB and RGBA share RUN's. -/
def OpKind.tag : OpKind → BitVec 2
  | .index => 0b00
  | .diff => 0b01
  | .luma => 0b10
  | .run | .rgb | .rgba => 0b11

/-- A first byte carries the tag of its class (R81). -/
theorem tag_of_classify {b0 : Byte} {k : OpKind} (h : classify b0 = k) :
    b0.toNat / 64 = k.tag.toNat := by
  obtain ⟨hfirst, hlast⟩ := classify_eq_iff.mp h
  cases k <;> simp only [OpKind.firstByte, OpKind.lastByte, OpKind.tag] at hfirst hlast ⊢ <;> bv_omega

theorem encodeStream_indexFields {b0 : Byte} (h : classify b0 = .index) :
    encodeStream (indexFields b0) = [b0] := by
  rw [indexFields, encodeStream, tag_append_field (t := 0b00#2) (tag_of_classify h)]

theorem encodeStream_diffFields {b0 : Byte} (h : classify b0 = .diff) :
    encodeStream (diffFields b0) = [b0] := by
  rw [diffFields, encodeStream, biasedField_sub_bias, biasedField_sub_bias, biasedField_sub_bias,
    tag_append_three_fields (t := 0b01#2) (tag_of_classify h)]

theorem encodeStream_lumaFields {b0 : Byte} (h : classify b0 = .luma) (b1 : Byte) :
    encodeStream (lumaFields b0 b1) = [b0, b1] := by
  rw [lumaFields, encodeStream, biasedField_sub_bias, biasedField_sub_bias, biasedField_sub_bias,
    tag_append_field (t := 0b10#2) (tag_of_classify h), nibbles_append]

theorem encodeStream_runFields {b0 : Byte} (h : classify b0 = .run) :
    encodeStream (runFields b0) = [b0] := by
  rw [runFields, encodeStream, Nat.add_sub_cancel, BitVec.ofNat_toNat, BitVec.setWidth_eq,
    tag_append_field (t := 0b11#2) (tag_of_classify h)]

theorem wf_diffFields (b0 : Byte) : (diffFields b0).wf = true := by
  have hr := (b0.extractLsb' 4 2).isLt
  have hg := (b0.extractLsb' 2 2).isLt
  have hb := (b0.extractLsb' 0 2).isLt
  rw [diffFields, wf_diff_iff, Config.diffBias]
  omega

theorem wf_lumaFields (b0 b1 : Byte) : (lumaFields b0 b1).wf = true := by
  have hg := (b0.extractLsb' 0 6).isLt
  have hr := (b1.extractLsb' 4 4).isLt
  have hb := (b1.extractLsb' 0 4).isLt
  rw [lumaFields, wf_luma_iff, Config.lumaGreenBias, Config.lumaRelBias]
  omega

theorem wf_runFields {b0 : Byte} (h : classify b0 = .run) : (runFields b0).wf = true :=
  wf_run_iff.mpr (run_bounds_of_decodeOpcode (decodeOpcode_of_run h []))

/-- What the decoder reads is well formed, and the bytes begin with its encoding (R80, R88, R90):
the converse of `decodeOpcode_encodeStream`. -/
theorem eq_encodeStream_append_of_decodeOpcode {bytes : List Byte} {i : Instr} {k : Nat}
    (h : decodeOpcode bytes = .ok (i, k)) :
    i.wf = true ∧ ∃ rest, bytes = encodeStream i ++ rest := by
  obtain ⟨b0, payload, rfl, -, ⟨hc, rfl⟩ | ⟨hc, rfl⟩ | ⟨hc, rfl⟩ | ⟨b1, rest, rfl, hc, rfl⟩ |
    ⟨r, g, b, rest, rfl, hc, rfl⟩ | ⟨r, g, b, a, rest, rfl, hc, rfl⟩⟩ := decodeOpcode_cases h
  · exact ⟨rfl, payload, by rw [encodeStream_indexFields hc]; rfl⟩
  · exact ⟨wf_diffFields b0, payload, by rw [encodeStream_diffFields hc]; rfl⟩
  · exact ⟨wf_runFields hc, payload, by rw [encodeStream_runFields hc]; rfl⟩
  · exact ⟨wf_lumaFields b0 b1, rest, by rw [encodeStream_lumaFields hc]; rfl⟩
  · exact ⟨rfl, rest, by rw [eq_firstByte_of_classify hc rfl]; rfl⟩
  · exact ⟨rfl, rest, by rw [eq_firstByte_of_classify hc rfl]; rfl⟩

/-- An encoding is as long as R89 says. -/
theorem length_encodeStream (i : Instr) : (encodeStream i).length = i.byteLength := by
  cases i <;> rfl

/-- Settles O6: the bytes read are the encoding the bytes begin with. -/
theorem encodeOfDecodeIsIdentity : Obligations.EncodeOfDecodeIsIdentity := by
  intro bytes i k h
  obtain ⟨hwf, rest, rfl⟩ := eq_encodeStream_append_of_decodeOpcode h
  have hk : k = (encodeStream i).length :=
    (byteLength_of_decodeOpcode h).trans (length_encodeStream i).symm
  refine ⟨hwf, isOpcode_of_decodeOpcode h, byteLength_of_decodeOpcode h, ?_, ?_⟩
  · rw [hk, List.length_append]
    exact Nat.le_add_right _ _
  · rw [hk, List.take_left]

/-! ## The assembler -/

theorem assemble_of_wf {i : Instr} (h : i.wf = true) : assemble i = some (encodeStream i) := if_pos h

/-- Settles O7: each byte's number is the sum of its fields, and each field the operand with its bias. -/
theorem assemblerBytesAndRejection : Obligations.AssemblerBytesAndRejection := by
  refine ⟨fun i => ?_, fun i => ?_, fun dr dg db hwf => ?_, fun dg drDg dbDg hwf => ?_,
    fun len hwf => ?_, fun r g b => assemble_of_wf rfl, fun r g b a => assemble_of_wf rfl,
    assemble_of_wf rfl⟩
  · simp [assemble]
  · refine ⟨_, assemble_of_wf rfl, ?_⟩
    rw [toNat_tag_append]
    simp
  · obtain ⟨hr, hg, hb⟩ := wf_diff_iff.mp hwf
    refine ⟨_, assemble_of_wf hwf, ?_⟩
    have hx := toNat_diffField hr
    have hy := toNat_diffField hg
    have hz := toNat_diffField hb
    rw [toNat_tag_append_three, BitVec.toNat_ofNat]
    omega
  · obtain ⟨hg, hr, hb⟩ := wf_luma_iff.mp hwf
    refine ⟨_, _, assemble_of_wf hwf, ?_, ?_⟩
    · have h := toNat_lumaGreenField hg
      rw [toNat_tag_append, BitVec.toNat_ofNat]
      omega
    · have hx := toNat_lumaRelField hr
      have hy := toNat_lumaRelField hb
      rw [toNat_nibbles_append]
      omega
  · refine ⟨_, assemble_of_wf hwf, ?_⟩
    have h := toNat_runField (wf_run_iff.mp hwf)
    rw [toNat_tag_append, BitVec.toNat_ofNat]
    omega

namespace Machine

/-! ## Every step answers a next state -/

/-- The decoder's step answers a next state: a pixel, or the fault taken (R90, R254). -/
theorem decodeStep_answers_next {s : State} (hmode : s.mode = .dec) : ∃ t, decodeStep s = .next t := by
  by_cases hrun : s.run = 0
  · obtain ⟨i, k, hd⟩ | hd := decodeOpcode_dichotomy (s.inBytes.drop s.inPos)
    · rw [decodeStep_opcode hrun hd]
      obtain ⟨-, p, h⟩ | ⟨len, -, h⟩ :=
        exec_opcode_cases (isOpcode_of_decodeOpcode hd) (s := s.advance k) hmode
      · exact ⟨_, h⟩
      · exact ⟨_, h⟩
    · exact ⟨_, decodeStep_truncated hrun hd⟩
  · exact ⟨_, decodeStep_inRun hrun⟩

/-- Every command answers a next state, in every MODE and PHASE (R227, R228). -/
theorem exec_command_answers_next {i : Instr} (h : i.isCommand = true) (s : State) :
    ∃ t, exec i s = .next t := by
  cases i <;> simp only [Instr.isCommand, Bool.false_eq_true] at h
  case startDecode n stream => exact ⟨_, exec_startDecode s n stream⟩
  case startEncode n => exact ⟨_, rfl⟩
  case readReg k => exact ⟨_, exec_readReg s k⟩
  case reservedCommand code => exact ⟨_, exec_reservedCommand s code⟩
  case decodeNext =>
    cases hm : s.mode
    case enc => exact ⟨_, exec_decodeNext_rejected (.inl hm)⟩
    case dec =>
      cases hp : s.phase
      case idle => exact ⟨_, exec_decodeNext_rejected (.inr hp)⟩
      case active => exact exec_decodeNext_active hm hp ▸ decodeStep_answers_next hm
      case done => exact ⟨_, exec_decodeNext_ended hm (.inl hp)⟩
      case failed => exact ⟨_, exec_decodeNext_ended hm (.inr hp)⟩
  case encodePixel p =>
    cases hm : s.mode
    case dec => exact ⟨_, exec_encodePixel_rejected (.inl hm) p⟩
    case enc =>
      cases hp : s.phase
      case idle => exact ⟨_, exec_encodePixel_rejected (.inr (.inl hp)) p⟩
      case active => exact ⟨_, exec_encodePixel_active hm hp p⟩
      case done => exact ⟨_, exec_encodePixel_done hm hp p⟩
      case failed => exact ⟨_, exec_encodePixel_rejected (.inr (.inr hp)) p⟩
  case encodeFinish =>
    cases hm : s.mode
    case dec => exact ⟨_, exec_encodeFinish_rejected (.inl hm)⟩
    case enc =>
      cases hp : s.phase
      case idle => exact ⟨_, exec_encodeFinish_rejected (.inr (.inl hp))⟩
      case active => exact ⟨_, exec_encodeFinish_active hm hp⟩
      case done => exact ⟨_, exec_encodeFinish_done hm hp⟩
      case failed => exact ⟨_, exec_encodeFinish_rejected (.inr (.inr hp))⟩

/-- What stands on the command port is a command (R220). -/
theorem isCommand_decodeCommand (c : Request) : (decodeCommand c).isCommand = true := by
  unfold decodeCommand
  split_ifs <;> rfl

/-- Settles O42: with no command the block rests, and every command answers. -/
theorem stepAlwaysAnswersNext : Obligations.StepAlwaysAnswersNext := by
  intro s
  refine ⟨?_, step_of_no_command⟩
  cases hcommands : s.commands with
  | nil => exact ⟨s, step_of_no_command hcommands⟩
  | cons c rest =>
    rw [step_of_command hcommands]
    exact exec_command_answers_next (isCommand_decodeCommand c) _

/-! ## The decoder on the end marker -/

/-- One INDEX opcode's byte (R82). -/
def indexByte (i : SlotIndex) : Byte := 0b00#2 ++ i

/-- The host's pulls. -/
def pulls (k : Nat) : List Request := List.replicate k (Request.bare 0x03)

/-- INDEX on an ACTIVE pass goes on to the rest (R92). -/
theorem indexWhileActive_cons {s : State} (h : s.phase = .active) (i : SlotIndex)
    (slots : List SlotIndex) :
    indexWhileActive (i :: slots) s = indexWhileActive slots (s.resolve (s.readSlot i)).emitPixel :=
  if_pos h

/-- A pass that is not ACTIVE runs no opcode (R92, R140). -/
theorem indexWhileActive_of_ended {s : State} (h : s.phase ≠ .active) (slots : List SlotIndex) :
    indexWhileActive slots s = s := by
  cases slots with
  | nil => rfl
  | cons i slots => exact if_neg h

/-- What each INDEX of a sequence keeps, the sequence keeps. -/
theorem indexWhileActive_induct {P : State → Prop}
    (hstep : ∀ (u : State) (p : Pixel), P u → P (u.resolve p).emitPixel) (slots : List SlotIndex)
    {s : State} (h : P s) : P (indexWhileActive slots s) := by
  induction slots generalizing s with
  | nil => exact h
  | cons i slots ih =>
    by_cases hphase : s.phase = .active
    · rw [indexWhileActive_cons hphase]
      exact ih (hstep s _ h)
    · rwa [indexWhileActive_of_ended hphase]

/-- INDEX opcodes leave OUT, RUN, IN, IN_POS and the port alone (R135). -/
theorem indexWhileActive_frame (slots : List SlotIndex) (s : State) :
    (indexWhileActive slots s).out = s.out ∧ (indexWhileActive slots s).run = s.run ∧
      s.SameRest (indexWhileActive slots s) :=
  indexWhileActive_induct (P := fun u => u.out = s.out ∧ u.run = s.run ∧ s.SameRest u)
    (fun _ _ h => h) slots ⟨rfl, rfl, rfl, rfl, rfl, rfl, rfl⟩

/-- Where the read position stands is nothing to an INDEX opcode. -/
theorem indexWhileActive_advance (slots : List SlotIndex) (s : State) (k : Nat) :
    indexWhileActive slots (s.advance k) = (indexWhileActive slots s).advance k := by
  induction slots generalizing s with
  | nil => rfl
  | cons i slots ih =>
    by_cases hphase : s.phase = .active
    · rw [indexWhileActive_cons hphase, indexWhileActive_cons (s := s.advance k) hphase]
      exact ih (s.resolve (s.readSlot i)).emitPixel
    · rw [indexWhileActive_of_ended hphase, indexWhileActive_of_ended (s := s.advance k) hphase]

/-- A pull of an INDEX opcode in AWAITING_OPCODE (R130, R132, R135). -/
theorem step_pull_index {s : State} (h : s.Awaiting) {i : SlotIndex} {rest : List Byte}
    (hbytes : s.inBytes.drop s.inPos = indexByte i :: rest) (k : Nat) :
    step (s.withCommands (pulls (k + 1))) =
      .next (((s.resolve (s.readSlot i)).emitPixel.advance 1).withCommands (pulls k)) := by
  have hdecode : decodeOpcode (s.inBytes.drop s.inPos) = .ok (.index i, 1) :=
    hbytes ▸ decodeOpcode_index i rest
  calc step (s.withCommands (pulls (k + 1)))
      = exec .decodeNext (s.withCommands (pulls k)) :=
        step_of_command (s := s.withCommands (pulls (k + 1))) (rest := pulls k) rfl
    _ = exec (.index i) ((s.withCommands (pulls k)).advance 1) :=
        exec_decodeNext_opcode (h.withCommands _) hdecode
    _ = _ := exec_index_dec (s := (s.withCommands (pulls k)).advance 1) h.1.1 i

/-- A pixel taken off a budget that is not used up leaves the pass running (R130, R140). -/
theorem State.Awaiting.emitPixel {s : State} (h : s.Awaiting) (hbudget : s.emitPixel.remaining ≠ 0) :
    s.emitPixel.Awaiting := by
  obtain ⟨⟨hmode, hphase, -⟩, hrun⟩ := h
  exact ⟨⟨hmode, (if_neg hbudget).trans hphase, hbudget⟩, hrun⟩

/-- As many pulls as INDEX opcodes at IN_POS, with budget for them all, are the sequence of opcodes, and
IN_POS moves past them. -/
theorem stepN_pulls_index (slots : List SlotIndex) (rest : List Byte) {s : State}
    (hready : s.remaining ≠ 0 → s.Awaiting) (hbudget : slots.length ≤ s.remaining.toNat)
    (hbytes : s.inBytes.drop s.inPos = slots.map indexByte ++ rest) :
    stepN slots.length (s.withCommands (pulls slots.length)) =
        .next (((indexWhileActive slots s).advance slots.length).withCommands []) ∧
      (indexWhileActive slots s).remaining.toNat + slots.length = s.remaining.toNat := by
  induction slots generalizing s with
  | nil => exact ⟨rfl, rfl⟩
  | cons i slots ih =>
    rw [List.length_cons] at hbudget ⊢
    have hawaiting : s.Awaiting := hready (by bv_omega)
    have hphase : s.phase = .active := hawaiting.1.2.1
    have hcount : (s.remaining - 1).toNat + 1 = s.remaining.toNat := by bv_omega
    have hresolved : (s.resolve (s.readSlot i)).Awaiting := hawaiting
    have htail : s.inBytes.drop (s.inPos + 1) = slots.map indexByte ++ rest := by
      rw [← List.drop_drop, hbytes]
      rfl
    obtain ⟨hrun, hremaining⟩ := ih (s := (s.resolve (s.readSlot i)).emitPixel.advance 1)
      hresolved.emitPixel (Nat.le_of_lt_succ (hbudget.trans_eq hcount.symm)) htail
    rw [indexWhileActive_advance] at hrun hremaining
    rw [stepN_succ (step_pull_index hawaiting hbytes slots.length), hrun, indexWhileActive_cons hphase,
      State.advance_advance, Nat.add_comm 1]
    refine ⟨rfl, ?_⟩
    rw [← hcount, ← Nat.add_assoc]
    exact congrArg (· + 1) hremaining

/-- Settles O23: the marker's bytes are those of the INDEX opcodes of `markerSlots`. -/
theorem endMarkerReadsAsIndexOpcodes : Obligations.EndMarkerReadsAsIndexOpcodes := by
  intro s rest hawaiting hbudget hbytes
  obtain ⟨hrun, hremaining⟩ := stepN_pulls_index markerSlots rest (fun _ => hawaiting) hbudget hbytes
  obtain ⟨hout, hrunKept, hrest⟩ := indexWhileActive_frame markerSlots s
  refine ⟨_, exec_endMarker_dec hawaiting.1.1, hrun.trans ?_, hremaining, hout, hrunKept, hrest⟩
  obtain ⟨-, -, -, hpos, -⟩ := hrest
  rw [← hpos]
  rfl

end Machine

end Sys2Proof
end


section
/-! Proofs of family 40_cache.md (R110 to R117): the index generator, the cache update, one opcode of the
lockstep between encoder and decoder, and which steps write the cache. -/

namespace Sys2Proof.Machine

/-! ## The index generator -/

/-- Settles O8: the sum has the bound for every pixel, and the two examples are closed evaluations. -/
theorem hashIsWeightedSumModulo64 : Obligations.HashIsWeightedSumModulo64 :=
  fun p => ⟨toNat_slotHash p, hashSum_le p, by decide, by decide⟩

/-- A 6-bit vector keeps its number modulo 64, so the reduction of R110 is the truncation of R111. -/
theorem slotHash_eq_ofNat (p : Pixel) : slotHash p = BitVec.ofNat 6 (hashSum p) :=
  BitVec.eq_of_toNat_eq (by rw [toNat_slotHash, BitVec.toNat_ofNat])

/-- Settles O9: truncation to 6 bits goes through every product and every partial sum. -/
theorem hashSixBitFormAgrees : Obligations.HashSixBitFormAgrees := by
  intro p
  simp only [slotHash_eq_ofNat, hashSum, BitVec.ofNat_add, BitVec.ofNat_mul, BitVec.ofNat_toNat]
  rfl

/-! ## The cache update -/

/-- Settles O10: the read after the update, and a record update of `cache` only. -/
theorem cacheUpdateWritesHashSlotOnly : Obligations.CacheUpdateWritesHashSlotOnly :=
  fun s p i => ⟨s.readSlot_cacheUpdate i p, rfl⟩

/-! ## One lockstep of encoder and decoder -/

/-- The selector looks at CACHE and PX only (R174), so the decoder's copy of them selects the same. -/
theorem State.select_congr {s d : State} (hcache : d.cache = s.cache) (hpx : d.px = s.px) (px : Pixel) :
    d.select px = s.select px := by
  rw [State.select, State.select, State.readSlot_congr hcache, hpx]

/-- A new pixel's steps write the cache once, by the cache update (R172, R181). -/
theorem State.cache_encodeNew (s : State) (px : Pixel) :
    (s.encodeNew px).cache = (s.cacheUpdate px).cache := by
  simp [State.encodeNew]

/-- The encoder's deltas lead from the previous pixel to the new one where alpha is kept (R136, R173). -/
theorem addDeltas_channelDelta {px prev : Pixel} (halpha : px.a = prev.a) :
    addDeltas prev (channelDelta px.r prev.r) (channelDelta px.g prev.g) (channelDelta px.b prev.b) =
      px := by
  simp only [addDeltas, addDelta_channelDelta, ← halpha]

/-- A stream opcode with operands in range that a decoder in state `d` resolves to `px` (R117). -/
structure DecodesTo (i : Instr) (d : State) (px : Pixel) : Prop where
  wf : i.wf = true
  isOpcode : i.isOpcode = true
  exec_eq : exec i d = .next (d.resolve px).emitPixel

/-- The choices by delta (R174): DIFF and LUMA are taken where their operands fit, and undo the delta
computation; RGB names the channels. -/
theorem decodesTo_selectByDelta {d : State} (hmode : d.mode = .dec) {px : Pixel}
    (halpha : px.a = d.px.a) : DecodesTo (selectByDelta px d.px) d px := by
  have hdeltas := addDeltas_channelDelta halpha
  simp only [selectByDelta]
  split
  case isTrue hfits => exact ⟨hfits, rfl, by rw [exec_diff_dec hmode, hdeltas]⟩
  case isFalse =>
    split
    case isTrue hfits =>
      exact ⟨hfits, rfl, by rw [exec_luma_dec hmode, add_sub_cancel, add_sub_cancel, hdeltas]⟩
    case isFalse => exact ⟨rfl, rfl, by rw [exec_rgb_dec hmode, ← halpha]⟩

/-- What the selector chooses from the decoder's own CACHE and PX, that decoder resolves to the pixel
(R117, R174). -/
theorem decodesTo_select {d : State} (hmode : d.mode = .dec) (px : Pixel) :
    DecodesTo (d.select px) d px := by
  unfold State.select
  split
  case isTrue hhit => exact ⟨rfl, rfl, by rw [exec_index_dec hmode, hhit]⟩
  case isFalse =>
    split
    case isTrue halpha => exact decodesTo_selectByDelta hmode halpha
    case isFalse => exact ⟨rfl, rfl, exec_rgba_dec hmode _ _ _ _⟩

/-- Settles O30: the two sides select the same opcode, and both update the same cache with the pixel. -/
theorem selectedOpcodeDecodesToPixel : Obligations.SelectedOpcodeDecodesToPixel := by
  intro s d px _ _ hdecoding hcache hpx
  obtain ⟨hmode, -, -⟩ := hdecoding
  obtain ⟨hwf, hopcode, hexec⟩ := decodesTo_select hmode px
  rw [State.select_congr hcache hpx] at hwf hopcode hexec
  refine ⟨hwf, hopcode, _, hexec, rfl, ?_, rfl⟩
  calc (d.resolve px).emitPixel.cache
      = (d.cacheUpdate px).cache := rfl
    _ = (s.cacheUpdate px).cache := by rw [State.cache_cacheUpdate, hcache, State.cache_cacheUpdate]
    _ = (s.encodeNew px).cache := (s.cache_encodeNew px).symm

/-! ## Which steps write the cache -/

/-- Settles O49: of the effects of a command, only a resolved pixel of a pull and an encode step of a
pixel other than PX write a slot, and both write the slot that PX now hashes to (R113, R139, R181). -/
theorem cacheChangesOnlyAtResolvedPixel : Obligations.CacheChangesOnlyAtResolvedPixel := by
  intro s t c rest j hcommands hstep h1 h2 hchanged
  cases commandEffect_of_step hcommands hstep with
  | startDecode hc => exact absurd hc h1
  | startEncode hc => exact absurd hc h2
  | startEncodeZero hc => exact absurd hc h2
  | pullQueued => exact absurd rfl hchanged
  | pullRun => exact absurd rfl hchanged
  | pullFault => exact absurd rfl hchanged
  | finish => exact absurd (State.readSlot_finish _ j) hchanged
  | answer => exact absurd rfl hchanged
  | pullResolved hc hm hp hr i k hd hi p =>
    have hread := State.readSlot_resolve ((s.withCommands rest).advance k) j p
    by_cases hj : j = slotHash p
    · exact ⟨hj, hread.trans (if_pos hj), hp, .inl ⟨hm, hc, hr, i, k, hd, hi⟩⟩
    · exact absurd (hread.trans (if_neg hj)) hchanged
  | pixel hc hm hp =>
    have hread := State.readSlot_encodeStep (s.withCommands rest) (Pixel.unpack c.pixel) j
    have hpx := State.px_encodeStep (s.withCommands rest) (Pixel.unpack c.pixel)
    by_cases hwritten : Pixel.unpack c.pixel ≠ s.px ∧ j = slotHash (Pixel.unpack c.pixel)
    · obtain ⟨hnew, hj⟩ := hwritten
      refine ⟨?_, ?_, hp, .inr ⟨hm, hc, hpx, hpx.trans_ne hnew⟩⟩
      · exact hj.trans (congrArg slotHash hpx.symm)
      · exact (hread.trans (if_pos ⟨hnew, hj⟩)).trans hpx.symm
    · exact absurd (hread.trans (if_neg hwritten)) hchanged

end Sys2Proof.Machine
end

section
/-! Proofs of family 41_decoder.md (R130 to R142): the six opcodes in a decode pass, one pull of a running
pass, and a whole decode pass. `exec_decodeNext_cases` says once what a pull of a running pass does;
`PullInvariant.stepN_decodePass` is the one induction over the pulls of a pass, and each claim about a pass
is an invariant for it. -/

namespace Sys2Proof.Machine

/-! ## The opcodes in a decode pass -/

/-- Settles O11. -/
theorem indexResolvesCacheSlot : Obligations.IndexResolvesCacheSlot :=
  fun _ i hdecoding => ⟨_, exec_index_dec hdecoding.1 i, .of_resolve hdecoding _⟩

/-- Settles O12: each channel is the wrapped sum. -/
theorem diffResolvesWrappedSum : Obligations.DiffResolvesWrappedSum :=
  fun _ dr dg db hdecoding => ⟨_, _, exec_diff_dec hdecoding.1 dr dg db, .of_resolve hdecoding _,
    toNat_wrap8 _, toNat_wrap8 _, toNat_wrap8 _, rfl⟩

/-- Settles O13: red and blue are the wrapped sums of both deltas, added to the old channel together (C3). -/
theorem lumaResolvesWrappedSum : Obligations.LumaResolvesWrappedSum := by
  intro s dg drDg dbDg hdecoding
  refine ⟨_, _, exec_luma_dec hdecoding.1 dg drDg dbDg, .of_resolve hdecoding _, ?_, toNat_wrap8 _, ?_, rfl⟩
  · rw [add_assoc]
    exact toNat_wrap8 _
  · rw [add_assoc]
    exact toNat_wrap8 _

/-- Settles O14. -/
theorem fullColorResolves : Obligations.FullColorResolves :=
  fun _ r g b a hdecoding =>
    ⟨⟨_, exec_rgb_dec hdecoding.1 r g b, .of_resolve hdecoding _⟩,
      ⟨_, exec_rgba_dec hdecoding.1 r g b a, .of_resolve hdecoding _⟩⟩

/-- A repeat of PX, with the number of repeats left in RUN (R131, R138). -/
theorem State.Repeats.of_toNat_eq {s : State} (h : s.Decoding) {r : BitVec 6} {left : Nat}
    (hr : r.toNat = left) : s.Repeats (s.withRun r).emitPixel left :=
  hr ▸ .of_run h r

/-- A RUN in range queues one repeat less than its length (R138). -/
theorem toNat_queued {len : Nat} (hwf : (Instr.run len).wf = true) :
    (BitVec.ofNat 6 (len - 1)).toNat = len - 1 :=
  Nat.eq_sub_of_add_eq (toNat_runField (wf_run_iff.mp hwf))

/-- Settles O15: a length in range fits the 6 bits of RUN. -/
theorem runQueuesRepeats : Obligations.RunQueuesRepeats :=
  fun _ len hdecoding hwf =>
    ⟨_, exec_run_dec hdecoding.1 len, .of_toNat_eq hdecoding (toNat_queued hwf)⟩

/-! ## One pull of a running pass -/

/-- A queued repeat is output (R131). -/
theorem exec_decodeNext_queued {s : State} (h : s.Decoding) (hrun : s.run ≠ 0) :
    exec .decodeNext s = .next (s.withRun (s.run - 1)).emitPixel := by
  obtain ⟨hmode, hphase, -⟩ := h
  rw [exec_decodeNext_active hmode hphase, decodeStep_inRun hrun]

/-- A repeat taken off a queue that holds one (R131). -/
theorem toNat_run_sub_one {r : BitVec 6} (h : r ≠ 0) : (r - 1).toNat = r.toNat - 1 := by
  bv_omega

/-- Settles O17. -/
theorem decodeNextContinuesRun : Obligations.DecodeNextContinuesRun :=
  fun _ hdecoding hrun =>
    ⟨_, exec_decodeNext_queued hdecoding hrun, .of_toNat_eq hdecoding (toNat_run_sub_one hrun)⟩

/-- Settles O16: PX after each of the five forms that keep alpha; at pass start RGBA and INDEX of an
unwritten slot take alpha from 255 to 0. -/
theorem onlyRgbaAndIndexChangeAlpha : Obligations.OnlyRgbaAndIndexChangeAlpha := by
  have hstart : (State.reset.startDecodePass 1 []).Decoding := ⟨rfl, rfl, by decide⟩
  refine ⟨fun s t r g b hdecoding h => ?_, fun s t dr dg db hdecoding h => ?_,
    fun s t dg x y hdecoding h => ?_, fun s t len hdecoding h => ?_,
    fun s t hdecoding hrun h => ?_, ?_, ?_⟩
  · cases (exec_rgb_dec hdecoding.1 r g b).symm.trans h
    rfl
  · cases (exec_diff_dec hdecoding.1 dr dg db).symm.trans h
    rfl
  · cases (exec_luma_dec hdecoding.1 dg x y).symm.trans h
    rfl
  · cases (exec_run_dec hdecoding.1 len).symm.trans h
    rfl
  · cases (exec_decodeNext_queued hdecoding hrun).symm.trans h
    rfl
  · exact ⟨_, _, hstart, exec_rgba_dec rfl 0 0 0 0, by decide⟩
  · exact ⟨_, _, hstart, exec_index_dec rfl 0, by decide⟩

/-- One pixel off the budget, PX as the response, and the pass goes on over the same stream (R130, R140). -/
def State.Outputs (s t : State) : Prop :=
  s.CountsPixel t ∧ t.responses = s.responses ++ [.pixel t.px] ∧
  t.mode = s.mode ∧ t.cause = s.cause ∧ t.input = s.input ∧ t.commands = s.commands

/-- The end of a decode step of a running pass (R130, R140). -/
theorem State.Outputs.emitPixel {s : State} (h : s.Decoding) : s.Outputs s.emitPixel := by
  obtain ⟨-, hphase, hbudget⟩ := h
  exact ⟨.of_eq hbudget rfl (by simp [hphase]), rfl, rfl, rfl, rfl, rfl⟩

/-- An opcode that is no RUN stands for one pixel (R14). -/
theorem opcodePixels_of_ne_run {i : Instr} (hop : i.isOpcode = true) (hi : ∀ len, i ≠ .run len) :
    opcodePixels i = 1 := by
  cases i <;> simp only [Instr.isOpcode, Bool.false_eq_true] at hop
  case run len => exact absurd rfl (hi len)
  all_goals rfl

/-- An opcode in AWAITING_OPCODE outputs the first of its pixels and queues the others (R133 to R138). -/
theorem exec_opcode_outputs {i : Instr} (hop : i.isOpcode = true) (hwf : i.wf = true) {s : State}
    (h : s.Awaiting) :
    ∃ t, exec i s = .next t ∧ s.Outputs t ∧ t.inPos = s.inPos ∧ t.run.toNat + 1 = opcodePixels i := by
  obtain ⟨hdecoding, hrun⟩ := h
  obtain ⟨hi, p, hexec⟩ | ⟨len, rfl, hexec⟩ := exec_opcode_cases hop hdecoding.1
  · refine ⟨_, hexec, .emitPixel (s := s.resolve p) hdecoding, rfl, ?_⟩
    rw [opcodePixels_of_ne_run hop hi]
    simp [hrun]
  · exact ⟨_, hexec, .emitPixel (s := s.withRun _) hdecoding, rfl, toNat_runField (wf_run_iff.mp hwf)⟩

/-- A pull of an opcode at IN_POS outputs its first pixel, queues the others, and moves IN_POS past exactly
its bytes (R130, R132). -/
theorem exec_decodeNext_opcode_outputs {s : State} (h : s.Awaiting) {i : Instr} {k : Nat}
    (hd : decodeOpcode (s.inBytes.drop s.inPos) = .ok (i, k)) :
    ∃ t, exec .decodeNext s = .next t ∧ s.Outputs t ∧ t.inPos = s.inPos + i.byteLength ∧
      t.run.toNat + 1 = opcodePixels i := by
  obtain ⟨hwf, -⟩ := eq_encodeStream_append_of_decodeOpcode hd
  rw [exec_decodeNext_opcode h hd]
  exact exec_opcode_outputs (s := s.advance i.byteLength) (isOpcode_of_decodeOpcode hd) hwf h

/-- Settles O18. -/
theorem decodeNextRunsFetchedOpcode : Obligations.DecodeNextRunsFetchedOpcode := by
  intro s i k hawaiting hd
  obtain ⟨t, hexec, ⟨hcounts, hresponses, -⟩, hpos, -⟩ := exec_decodeNext_opcode_outputs hawaiting hd
  exact ⟨exec_decodeNext_opcode hawaiting hd, t, hexec, hpos, hcounts, hresponses⟩

/-- What a pull that outputs a pixel reads: nothing where a repeat was queued, and one opcode where none
was, whose further pixels it queues (R131, R132). -/
def State.Reads (s t : State) : Prop :=
  (s.run ≠ 0 ∧ t.inPos = s.inPos ∧ t.run.toNat + 1 = s.run.toNat) ∨
  (s.run = 0 ∧ ∃ i k, decodeOpcode (s.inBytes.drop s.inPos) = .ok (i, k) ∧
    t.inPos = s.inPos + i.byteLength ∧ t.run.toNat + 1 = opcodePixels i)

/-- The bytes at IN_POS are asked for and hold no whole opcode (R251). -/
def State.Starved (s : State) : Prop :=
  s.run = 0 ∧ decodeOpcode (s.inBytes.drop s.inPos) = .error .truncated

/-- A pull of a running pass outputs a pixel, or faults (R130). -/
theorem exec_decodeNext_cases {s : State} (h : s.Decoding) :
    (∃ t, exec .decodeNext s = .next t ∧ s.Outputs t ∧ s.Reads t) ∨
    (s.Starved ∧ exec .decodeNext s = .next (s.faultEntry .truncatedInput)) := by
  by_cases hrun : s.run = 0
  · obtain ⟨i, k, hd⟩ | hd := decodeOpcode_dichotomy (s.inBytes.drop s.inPos)
    · obtain ⟨t, hexec, hout, hreads⟩ := exec_decodeNext_opcode_outputs ⟨h, hrun⟩ hd
      exact .inl ⟨t, hexec, hout, .inr ⟨hrun, i, k, hd, hreads⟩⟩
    · obtain ⟨hmode, hphase, -⟩ := h
      refine .inr ⟨⟨hrun, hd⟩, ?_⟩
      rw [exec_decodeNext_active hmode hphase, decodeStep_truncated hrun hd]
  · have hleft : (s.run - 1).toNat + 1 = s.run.toNat := by bv_omega
    exact .inl ⟨_, exec_decodeNext_queued h hrun, .emitPixel (s := s.withRun _) h,
      .inl ⟨hrun, rfl, hleft⟩⟩

/-! ## A decode pass -/

/-- A decode pass of `n` pixels after `j` pulls, none of which failed (R23, R140). -/
def State.Counting (n j : Nat) (s : State) : Prop :=
  s.mode = .dec ∧ s.phase = startPhase s.remaining ∧ s.remaining.toNat + j = n

/-- A decode pass that has failed (R254). -/
def State.Failed (s : State) : Prop :=
  s.mode = .dec ∧ s.phase = .failed ∧ s.cause = .truncatedInput

/-- With pulls left the pass is running (R31 (4), R140). -/
theorem State.Counting.decoding {n j : Nat} {s : State} (h : s.Counting n j) (hj : j < n) :
    s.Decoding := by
  obtain ⟨hmode, hphase, hcount⟩ := h
  have hbudget : s.remaining ≠ 0 := by bv_omega
  exact ⟨hmode, hphase.trans (startPhase_eq_active.mpr hbudget), hbudget⟩

/-- A pull that outputs a pixel keeps the count (R130, R140). -/
theorem State.Counting.outputs {n j : Nat} {s t : State} (h : s.Counting n j) (hout : s.Outputs t) :
    t.Counting n (j + 1) := by
  obtain ⟨hmode, -, hcount⟩ := h
  obtain ⟨⟨hlower, hphase⟩, -, hmodeKept, -⟩ := hout
  have hlast : s.remaining = 1 ↔ t.remaining = 0 := by bv_omega
  refine ⟨hmodeKept.trans hmode, ?_, by omega⟩
  rw [hphase, startPhase]
  exact if_congr hlast rfl rfl

/-- After `n` pulls the budget is used up, and the pass is over (R140). -/
theorem State.Counting.done {n : Nat} {s : State} (h : s.Counting n n) :
    s.phase = .done ∧ s.remaining = 0 := by
  obtain ⟨-, hphase, hcount⟩ := h
  have hbudget : s.remaining = 0 := by bv_omega
  exact ⟨hphase.trans (if_pos hbudget), hbudget⟩

/-- What START_DECODE leaves before the `n` pulls (R221). -/
def State.passStart (s : State) (n : Nat) (bytes : List Byte) : State :=
  ((s.withCommands (pulls n)).startDecodePass (BitVec.ofNat 64 n) bytes).respond .ok

/-- The first command of a decode pass is START_DECODE, and the pulls stay issued (R221, R230). -/
theorem step_decodePass (s : State) (n : Nat) (bytes : List Byte) :
    step (s.withCommands (decodePass n bytes)) = .next (s.passStart n bytes) := by
  rw [step_of_command (s := s.withCommands (decodePass n bytes)) (rest := pulls n) rfl]
  rfl

/-- A count below 2^64 fits REMAINING (R23, R221). -/
theorem State.Counting.passStart (s : State) {n : Nat} (hn : n < 2 ^ 64) (bytes : List Byte) :
    (s.passStart n bytes).Counting n 0 :=
  ⟨rfl, rfl, Nat.mod_eq_of_lt hn⟩

/-- What is said of a decode pass of `n` pixels after its `j`-th pull, `P` while no pull has failed and `Q`
once one has, and why each pull keeps it. The commands left on the port are not part of it. -/
structure PullInvariant (n : Nat) (P Q : Nat → State → Prop) : Prop where
  port_running : ∀ {j s} (cs : List Request), P j s → P j (s.withCommands cs)
  port_failed : ∀ {j s} (cs : List Request), Q j s → Q j (s.withCommands cs)
  outputs : ∀ {j s t}, P j s → s.Outputs t → s.Reads t → P (j + 1) t
  fault : ∀ {j s}, s.Counting n j → P j s → s.Starved → Q (j + 1) (s.faultEntry .truncatedInput)
  ended : ∀ {j s}, Q j s → Q (j + 1) (s.respond .endOfPass)

namespace PullInvariant
variable {n : Nat} {P Q : Nat → State → Prop}

/-- One pull of an unfinished pass, failed or not (R130, R223, R254). -/
theorem exec_decodeNext (hinv : PullInvariant n P Q) {j : Nat} {s : State} (hj : j < n)
    (h : (s.Counting n j ∧ P j s) ∨ (s.Failed ∧ Q j s)) :
    ∃ t, exec .decodeNext s = .next t ∧ t.commands = s.commands ∧
      ((t.Counting n (j + 1) ∧ P (j + 1) t) ∨ (t.Failed ∧ Q (j + 1) t)) := by
  obtain ⟨hcounting, hp⟩ | ⟨hfailed, hq⟩ := h
  · obtain ⟨t, hexec, hout, hreads⟩ | ⟨hstarved, hexec⟩ :=
      exec_decodeNext_cases (hcounting.decoding hj)
    · have hcommands : t.commands = s.commands := by
        obtain ⟨-, -, -, -, -, hcommands⟩ := hout
        exact hcommands
      exact ⟨t, hexec, hcommands, .inl ⟨hcounting.outputs hout, hinv.outputs hp hout hreads⟩⟩
    · exact ⟨_, hexec, rfl, .inr ⟨⟨hcounting.1, rfl, rfl⟩, hinv.fault hcounting hp hstarved⟩⟩
  · obtain ⟨hmode, hphase, hcause⟩ := hfailed
    exact ⟨_, exec_decodeNext_ended hmode (.inr hphase), rfl,
      .inr ⟨⟨hmode, hphase, hcause⟩, hinv.ended hq⟩⟩

/-- The pulls that are left of a pass (R230). -/
theorem stepN_pulls (hinv : PullInvariant n P Q) {k j : Nat} {s : State} (hjk : j + k = n)
    (hcommands : s.commands = pulls k) (h : (s.Counting n j ∧ P j s) ∨ (s.Failed ∧ Q j s)) :
    ∃ t, stepN k s = .next t ∧ ((t.Counting n n ∧ P n t) ∨ (t.Failed ∧ Q n t)) := by
  induction k generalizing j s with
  | zero =>
    obtain rfl : j = n := hjk
    exact ⟨s, rfl, h⟩
  | succ k ih =>
    obtain ⟨t, hexec, hleft, ht⟩ := hinv.exec_decodeNext (s := s.withCommands (pulls k)) (by omega)
      (h.imp (.imp_right (hinv.port_running _)) (.imp_right (hinv.port_failed _)))
    have hstep : step s = .next t :=
      (step_of_command (rest := pulls k) hcommands).trans hexec
    rw [stepN_succ hstep]
    exact ih (by omega) hleft ht

/-- A whole decode pass: it ends DONE with its budget used up, or FAILED (R141). -/
theorem stepN_decodePass (hinv : PullInvariant n P Q) (hn : n < 2 ^ 64) {s : State} {bytes : List Byte}
    (hstart : P 0 (s.passStart n bytes)) :
    ∃ t, stepN (n + 1) (s.withCommands (decodePass n bytes)) = .next t ∧
      ((t.phase = .done ∧ t.remaining = 0 ∧ P n t) ∨ (t.Failed ∧ Q n t)) := by
  rw [stepN_succ (step_decodePass s n bytes)]
  obtain ⟨t, hrun, ht⟩ := hinv.stepN_pulls (Nat.zero_add n) rfl
    (.inl ⟨.passStart s hn bytes, hstart⟩)
  refine ⟨t, hrun, ht.imp_left fun ⟨hcounting, hp⟩ => ?_⟩
  obtain ⟨hphase, hbudget⟩ := hcounting.done
  exact ⟨hphase, hbudget, hp⟩

end PullInvariant

/-! ### The pixels of a pass -/

/-- `j` pulls gave `j` pixels, after the responses `rs`. -/
def PixelsOut (rs : List Response) (j : Nat) (s : State) : Prop :=
  s.cause = .none ∧ ∃ ps : List Pixel, ps.length = j ∧ s.responses = rs ++ ps.map .pixel

/-- Of `j` pulls the first gave pixels, one failed, and the rest answered END; the budget of `n` is lower by
the pixels alone (R254, R255). -/
def PixelsCut (rs : List Response) (n j : Nat) (s : State) : Prop :=
  ∃ ps : List Pixel, ps.length < j ∧ s.remaining.toNat + ps.length = n ∧
    s.responses = rs ++ ps.map .pixel ++ .fail .truncatedInput ::
      List.replicate (j - ps.length - 1) .endOfPass

/-- R141's pixels: each pull adds a pixel, the one FAIL, or an END. -/
theorem pullInvariant_pixels (rs : List Response) (n : Nat) :
    PullInvariant n (PixelsOut rs) (PixelsCut rs n) where
  port_running _ h := h
  port_failed _ h := h
  outputs := by
    rintro j s t ⟨hcause, ps, hlength, hresponses⟩ ⟨-, hpixel, -, hcauseKept, -⟩ -
    refine ⟨hcauseKept.trans hcause, ps ++ [t.px], by simp [hlength], ?_⟩
    rw [hpixel, hresponses, List.map_append, List.append_assoc]
    rfl
  fault := by
    rintro j s ⟨-, -, hcount⟩ ⟨-, ps, hlength, hresponses⟩ -
    refine ⟨ps, by omega, hlength ▸ hcount, ?_⟩
    simp [hresponses, hlength]
  ended := by
    rintro j s ⟨ps, hlength, hcount, hresponses⟩
    have hends : j + 1 - ps.length - 1 = j - ps.length - 1 + 1 := by omega
    refine ⟨ps, by omega, hcount, ?_⟩
    rw [State.responses_respond, hresponses, hends, List.replicate_succ']
    simp

/-- Settles O24: the pixels of the pass, counted against its pulls. -/
theorem decodePassCount : Obligations.DecodePassCount := by
  intro s n bytes hn
  obtain ⟨t, hrun, ⟨hphase, hbudget, hcause, ps, hlength, hresponses⟩ |
      ⟨⟨-, hphase, hcause⟩, ps, hlength, hcount, hresponses⟩⟩ :=
    (pullInvariant_pixels (s.responses ++ [.ok]) n).stepN_decodePass hn (s := s) (bytes := bytes)
      ⟨rfl, [], rfl, (List.append_nil _).symm⟩
  · exact ⟨t, ps, hrun, .inl ⟨hphase, hcause, hbudget, hlength, by simp [hresponses]⟩⟩
  · exact ⟨t, ps, hrun, .inr ⟨hphase, hcause, hlength, by omega, by simp [hresponses]⟩⟩

/-! ### The bytes of a pass -/

/-- The pixels a sequence of opcodes stands for. -/
def pixelSum (ops : List Instr) : Nat := (ops.map opcodePixels).sum

/-- The bytes a sequence of opcodes takes. -/
def byteSum (ops : List Instr) : Nat := (ops.map Instr.byteLength).sum

/-- The bytes are those of the opcodes, and what is left. -/
def SplitsAs (bytes : List Byte) (ops : List Instr) (rest : List Byte) : Prop :=
  bytes = ops.flatMap encodeStream ++ rest ∧ ∀ i ∈ ops, i.isOpcode = true ∧ i.wf = true

theorem pixelSum_append (ops : List Instr) (i : Instr) :
    pixelSum (ops ++ [i]) = pixelSum ops + opcodePixels i := by
  simp [pixelSum]

theorem byteSum_append (ops : List Instr) (i : Instr) :
    byteSum (ops ++ [i]) = byteSum ops + i.byteLength := by
  simp [byteSum]

/-- What is left stands behind the opcodes' bytes. -/
theorem SplitsAs.drop_eq {bytes rest : List Byte} {ops : List Instr} (h : SplitsAs bytes ops rest) :
    bytes.drop (byteSum ops) = rest := by
  obtain ⟨rfl, -⟩ := h
  exact List.drop_left' (by simp [byteSum, List.length_flatMap, length_encodeStream])

/-- An opcode read from what is left is the next one of the bytes. -/
theorem SplitsAs.append {bytes rest : List Byte} {ops : List Instr} (h : SplitsAs bytes ops rest)
    {i : Instr} {k : Nat} (hd : decodeOpcode rest = .ok (i, k)) :
    ∃ rest', SplitsAs bytes (ops ++ [i]) rest' := by
  obtain ⟨rfl, hops⟩ := h
  obtain ⟨hwf, rest', rfl⟩ := eq_encodeStream_append_of_decodeOpcode hd
  refine ⟨rest', by simp, fun x hx => ?_⟩
  obtain hx | hx := List.mem_append.mp hx
  · exact hops x hx
  · rw [List.mem_singleton.mp hx]
    exact ⟨isOpcode_of_decodeOpcode hd, hwf⟩

/-- `j` pulls read the opcodes whose pixels are the `j` given and those queued; IN_POS is behind them, and
without the last opcode they would not have made up `j`. -/
def BytesRead (bytes : List Byte) (j : Nat) (s : State) : Prop :=
  s.inBytes = bytes ∧ ∃ ops rest, SplitsAs bytes ops rest ∧ s.inPos = byteSum ops ∧
    j + s.run.toNat = pixelSum ops ∧ (ops ≠ [] → pixelSum ops.dropLast < j)

/-- Every whole opcode was read and its pixels given, no whole opcode is left, and IN_POS is at the end of
IN (R254). -/
def BytesExhausted (bytes : List Byte) (n _j : Nat) (s : State) : Prop :=
  s.inPos = bytes.length ∧ ∃ ops rest, SplitsAs bytes ops rest ∧
    s.remaining.toNat + pixelSum ops = n ∧ decodeOpcode rest = .error .truncated

/-- R141's bytes: a pull with no repeat queued reads the next opcode, so by then exactly the pixels of the
opcodes read so far are given. -/
theorem pullInvariant_bytes (bytes : List Byte) (n : Nat) :
    PullInvariant n (BytesRead bytes) (BytesExhausted bytes n) where
  port_running _ h := h
  port_failed _ h := h
  outputs := by
    rintro j s t ⟨hbytes, ops, rest, hsplit, hpos, hpixels, hlast⟩ ⟨-, -, -, -, hinput, -⟩ hreads
    have hkept : t.inBytes = bytes := (congrArg (·.getD []) hinput).trans hbytes
    obtain ⟨-, hposKept, hqueued⟩ | ⟨hrun, i, k, hd, hmoved, hqueued⟩ := hreads
    · refine ⟨hkept, ops, rest, hsplit, hposKept.trans hpos, by omega, fun hne => ?_⟩
      exact (hlast hne).trans (Nat.lt_succ_self j)
    · have hgiven : j = pixelSum ops := by simpa [hrun] using hpixels
      rw [hbytes, hpos, hsplit.drop_eq] at hd
      obtain ⟨rest', hsplit'⟩ := hsplit.append hd
      refine ⟨hkept, ops ++ [i], rest', hsplit', ?_, ?_, fun _ => ?_⟩
      · rw [hmoved, hpos, byteSum_append]
      · rw [pixelSum_append]
        omega
      · rw [List.dropLast_concat]
        omega
  fault := by
    rintro j s ⟨-, -, hcount⟩ ⟨hbytes, ops, rest, hsplit, hpos, hpixels, -⟩ ⟨hrun, hd⟩
    have hgiven : j = pixelSum ops := by simpa [hrun] using hpixels
    rw [hbytes, hpos, hsplit.drop_eq] at hd
    exact ⟨congrArg List.length hbytes, ops, rest, hsplit, hgiven ▸ hcount, hd⟩
  ended h := h

/-- Settles O57: the opcodes read, counted against the pixels given. -/
theorem decodePassReadsExactlyItsOpcodes : Obligations.DecodePassReadsExactlyItsOpcodes := by
  intro s n bytes hn
  obtain ⟨t, hrun, ⟨hphase, -, -, ops, rest, ⟨hbytes, hops⟩, hpos, hpixels, hlast⟩ |
      ⟨⟨-, hphase, -⟩, hpos, ops, rest, ⟨hbytes, hops⟩, hcount, hd⟩⟩ :=
    (pullInvariant_bytes bytes n).stepN_decodePass hn (s := s) (bytes := bytes)
      ⟨rfl, [], bytes, ⟨rfl, nofun⟩, rfl, rfl, fun hne => absurd rfl hne⟩
  · exact ⟨t, ops, rest, hrun, hbytes, hops,
      .inl ⟨hphase, hpos, (Nat.le_add_right _ _).trans_eq hpixels, hlast⟩⟩
  · exact ⟨t, ops, rest, hrun, hbytes, hops, .inr ⟨hphase, hpos, hcount, hd⟩⟩

end Sys2Proof.Machine
end

section
/-! Proofs of family 42_encoder.md (R170 to R187): the emitters, one encode step, the opcode selector, and
the codec as a whole. `State.Explains` is the encoder's invariant: OUT and the pending run of an encode pass
decode to the pixels accepted so far. -/

namespace Sys2Proof.Machine

/-! ## The emitters -/

/-- In an encode pass an opcode, or END, appends the assembler's bytes to OUT (R93, R175 to R180, R184). -/
theorem exec_assembled {i : Instr} (hi : i.isOpcode = true ∨ i = .endMarker) {bytes : List Byte}
    (hbytes : assemble i = some bytes) {s : State} (hmode : s.mode = .enc) :
    exec i s = .next { s with out := s.out ++ bytes } := by
  have hstream : encodeStream i = bytes := by
    unfold assemble at hbytes
    split at hbytes
    · exact Option.some.inj hbytes
    · cases hbytes
  rw [exec_emit hi hmode, ← hstream]
  rfl

/-- RUN's byte for a length in range (R180). -/
theorem encodeStream_run {len : Nat} (h : 1 ≤ len ∧ len ≤ 62) : encodeStream (.run len) = [runByte len] := by
  have hnum : (runByte len).toNat = 3 * 64 + (len - 1) := by
    have hor := Nat.shiftLeft_add_eq_or_of_lt (b := len - 1) (i := 6) (by omega) 3
    rw [Nat.shiftLeft_eq] at hor
    rw [runByte, BitVec.toNat_or, BitVec.toNat_ofNat, Nat.mod_eq_of_lt (by omega)]
    exact hor.symm
  have hfield := toNat_runField h
  rw [encodeStream]
  congr 1
  apply BitVec.eq_of_toNat_eq
  rw [toNat_tag_append, BitVec.toNat_ofNat, hnum]
  omega

/-- Settles O25: the bytes are the assembler's (`assemblerBytesAndRejection`). -/
theorem opcodesEmitTheirBytes : Obligations.OpcodesEmitTheirBytes := by
  intro s hmode
  obtain ⟨-, -, hdiff, hluma, -, hrgb, hrgba, hend⟩ := assemblerBytesAndRejection
  refine ⟨fun i => exec_assembled (.inl rfl) (assemble_of_wf rfl) hmode, fun dr dg db hwf => ?_,
    fun dg x y hwf => ?_, fun len hwf => ?_, fun r g b => exec_assembled (.inl rfl) (hrgb r g b) hmode,
    fun r g b a => exec_assembled (.inl rfl) (hrgba r g b a) hmode,
    exec_assembled (.inr rfl) hend hmode⟩
  · obtain ⟨b, hbytes, hb⟩ := hdiff dr dg db hwf
    exact ⟨b, exec_assembled (.inl rfl) hbytes hmode, hb⟩
  · obtain ⟨b0, b1, hbytes, hb⟩ := hluma dg x y hwf
    exact ⟨b0, b1, exec_assembled (.inl rfl) hbytes hmode, hb⟩
  · refine exec_assembled (.inl rfl) ?_ hmode
    rw [assemble_of_wf hwf, encodeStream_run (wf_run_iff.mp hwf)]

/-! ## One encode step -/

/-- What a flush writes (R172). -/
theorem State.out_flushRun_eq {s : State} (h : s.run.toNat ≤ 62) :
    s.flushRun.out = s.out ++ flushBytes s.run.toNat := by
  have hpos : s.run ≠ 0 ↔ 0 < s.run.toNat := by bv_omega
  rw [State.out_flushRun, flushBytes]
  simp only [hpos]
  split
  next hrun => rw [encodeStream_run ⟨hrun, h⟩]
  next => rfl

/-- What Finish writes (R184). -/
theorem State.out_finish_eq {s : State} (h : s.run.toNat ≤ 62) :
    s.finish.out = s.out ++ finishBytes s.run.toNat := by
  rw [State.out_finish, State.out_flushRun_eq h, List.append_assoc]
  rfl

/-- The repeat that fills a run is the one after 61 (R171). -/
theorem toNat_add_one_eq_runMax {r : BitVec 6} : (r + 1).toNat = Config.runMax ↔ r.toNat = 61 := by
  rw [Config.runMax]
  bv_omega

/-- The pending run after steps 1 and 2, as a number (R171, R172). -/
theorem State.toNat_run_encodeBody {s : State} (h : s.run.toNat ≤ 61) (px : Pixel) :
    (s.encodeBody px).run.toNat =
      if px = s.px then (if s.run.toNat = 61 then 0 else s.run.toNat + 1) else 0 := by
  have hnext : (s.run + 1).toNat = s.run.toNat + 1 := by bv_omega
  simp only [State.run_encodeBody, toNat_add_one_eq_runMax]
  split_ifs
  · rfl
  · exact hnext
  · rfl

/-- At most 61 repeats stay pending (R31 (2), R171). -/
theorem State.toNat_run_encodeBody_le {s : State} (h : s.run.toNat ≤ 61) (px : Pixel) :
    (s.encodeBody px).run.toNat ≤ 61 := by
  rw [State.toNat_run_encodeBody h]
  split_ifs <;> omega

/-- A pixel equal to PX writes nothing but a full run (R171). -/
theorem State.out_encodeBody_same (s : State) :
    (s.encodeBody s.px).out = s.out ++ if s.run.toNat = 61 then [0xFD] else [] := by
  rw [State.out_encodeBody, if_pos rfl]
  refine congrArg (s.out ++ ·) (if_ctx_congr toNat_add_one_eq_runMax (fun hfull => ?_) fun _ => rfl)
  rw [toNat_add_one_eq_runMax.mpr hfull]
  rfl

/-- A new pixel writes the pending run and the selected opcode (R172, R174). -/
theorem State.out_encodeBody_new {s : State} (h : s.run.toNat ≤ 61) {px : Pixel} (hnew : px ≠ s.px) :
    (s.encodeBody px).out = s.out ++ flushBytes s.run.toNat ++ encodeStream (s.select px) := by
  rw [State.out_encodeBody, if_neg hnew, ← List.append_assoc, ← State.out_flushRun,
    State.out_flushRun_eq (by omega)]

/-- The budget is used up by its last pixel (R183). -/
theorem remaining_sub_one_eq_zero {n : BitVec 64} : n - 1 = 0 ↔ n = 1 := by
  bv_omega

/-- An encode step's writes, those of Finish after the last pixel included (R183). -/
theorem State.out_encodeStep_eq {s : State} (h : s.run.toNat ≤ 61) (px : Pixel) :
    (s.encodeStep px).out = (s.encodeBody px).out ++
      if s.remaining = 1 then finishBytes (s.encodeBody px).run.toNat else [] := by
  have hrun : ((s.encodeBody px).acceptPixel px).run.toNat ≤ 62 :=
    (State.toNat_run_encodeBody_le h px).trans (by omega)
  rw [State.out_encodeStep, State.out_finish_eq hrun]
  simp only [remaining_sub_one_eq_zero]
  split
  · rfl
  · rw [List.append_nil]

/-- What every ENCODE_PIXEL of a running encode pass does: one pixel off the budget, OK, and neither the
decoder's elements nor the port touched (R183, R224). -/
theorem State.Encoding.accepts {s : State} (h : s.Encoding) (px : Pixel) :
    exec (.encodePixel px) s = .next ((s.encodeStep px).respond .ok) ∧
      s.CountsPixel ((s.encodeStep px).respond .ok) ∧
      ((s.encodeStep px).respond .ok).responses = s.responses ++ [.ok] ∧
      s.SameRest ((s.encodeStep px).respond .ok) := by
  obtain ⟨hmode, hphase, hbudget, -⟩ := h
  refine ⟨exec_encodePixel_active hmode hphase px, .of_eq hbudget ?_ ?_, ?_, ?_⟩
  · simp
  · simp [State.phase_encodeStep, hphase]
  · simp
  · simp [State.SameRest]

/-- Settles O26. -/
theorem encodePixelExtendsRun : Obligations.EncodePixelExtendsRun := by
  intro s hencoding
  obtain ⟨hexec, hcounts, hresponses, hrest⟩ := hencoding.accepts s.px
  obtain ⟨-, -, -, hrun⟩ := hencoding
  have hpending := State.toNat_run_encodeBody hrun s.px
  rw [if_pos rfl] at hpending
  refine ⟨_, hexec, ⟨?_, ?_⟩, ?_, ?_, hcounts, hresponses, hrest⟩
  · rw [State.run_respond, State.run_encodeStep, ← hpending]
    simp only [remaining_sub_one_eq_zero]
    split <;> rfl
  · rw [State.out_respond, State.out_encodeStep_eq hrun, State.out_encodeBody_same, hpending]
  · simp
  · exact State.cache_ext fun j => by simp

/-- Settles O27. -/
theorem encodePixelResolves : Obligations.EncodePixelResolves := by
  intro s px hencoding hnew
  obtain ⟨hexec, hcounts, hresponses, hrest⟩ := hencoding.accepts px
  obtain ⟨-, -, -, hrun⟩ := hencoding
  have hflushed : (s.encodeBody px).run = 0 := by rw [State.run_encodeBody, if_neg hnew]
  refine ⟨_, hexec, ?_, ?_, ?_, ?_, hcounts, hresponses, hrest⟩
  · rw [State.out_respond, State.out_encodeStep_eq hrun, State.out_encodeBody_new hrun hnew, hflushed]
    rfl
  · simp
  · rw [State.run_respond, State.run_encodeStep, hflushed, ite_self]
  · simp [hnew]

/-! ## The opcode selector -/

/-- The delta is the one number in −128..127 that is congruent to the channel difference (R173). -/
theorem channelDelta_eq {cur prev : Byte} {d : Int}
    (h : -128 ≤ d ∧ d ≤ 127 ∧ (cur.toNat - prev.toNat - d) % 256 = 0) : channelDelta cur prev = d := by
  have := channelDelta_range cur prev
  omega

theorem fitsDiff_iff {dr dg db : Int} : fitsDiff dr dg db = true ↔
    (-2 ≤ dr ∧ dr ≤ 1) ∧ (-2 ≤ dg ∧ dg ≤ 1) ∧ (-2 ≤ db ∧ db ≤ 1) :=
  wf_diff_iff

theorem fitsLuma_iff {dg drDg dbDg : Int} : fitsLuma dg drDg dbDg = true ↔
    (-32 ≤ dg ∧ dg ≤ 31) ∧ (-8 ≤ drDg ∧ drDg ≤ 7) ∧ (-8 ≤ dbDg ∧ dbDg ≤ 7) :=
  wf_luma_iff

/-- Settles O28: the deltas given are the encoder's own. -/
theorem selectorFollowsFixedOrder : Obligations.SelectorFollowsFixedOrder := by
  intro s px dr dg db hr hg hb
  simp only [State.select, selectByDelta, channelDelta_eq hr, channelDelta_eq hg, channelDelta_eq hb,
    fitsDiff_iff, fitsLuma_iff]

/-- A difference of two deltas fits LUMA wrapped exactly where it fits plain: with the green delta in
LUMA's range it is too small to come near ±256 (R173). -/
theorem wrapped_fits_iff {d dg : Int} (hd : -128 ≤ d ∧ d ≤ 127) (hg : -32 ≤ dg ∧ dg ≤ 31) :
    (-8 ≤ sext8 (wrap8 (d - dg)) ∧ sext8 (wrap8 (d - dg)) ≤ 7) ↔ (-8 ≤ d - dg ∧ d - dg ≤ 7) := by
  have hrange := sext8_range (wrap8 (d - dg))
  have hwrap := toNat_wrap8 (d - dg)
  omega

/-- Settles O29. -/
theorem wrappedRelativeDeltasSelectTheSame : Obligations.WrappedRelativeDeltasSelectTheSame := by
  intro cr pr cg pg cb pb dr dg db
  obtain ⟨hr, hr', -⟩ := channelDelta_range cr pr
  obtain ⟨hb, hb', -⟩ := channelDelta_range cb pb
  rw [Bool.eq_iff_iff, fitsLuma_iff, fitsLuma_iff]
  refine and_congr_right fun hg => ?_
  rw [wrapped_fits_iff ⟨hr, hr'⟩ hg, wrapped_fits_iff ⟨hb, hb'⟩ hg]

/-! ## The decoder's pulls -/

/-- The step takes the first command issued (R13, R61). -/
theorem step_withCommands (s : State) (c : Request) (rest : List Request) :
    step (s.withCommands (c :: rest)) = exec (decodeCommand c) (s.withCommands rest) :=
  step_of_command rfl

/-- One pull of a running pass outputs `p` and leads to `t`, whatever is issued on the port (R130). -/
structure State.Pull (d : State) (p : Pixel) (t : State) : Prop where
  outputs : d.Outputs t
  px : t.px = p
  exec_eq : ∀ cs, exec .decodeNext (d.withCommands cs) = .next (t.withCommands cs)

/-- Pulls output exactly these pixels, one after another (R130). -/
inductive State.PullsTo : State → List Pixel → State → Prop where
  | nil (d : State) : PullsTo d [] d
  | cons {d t u : State} {p : Pixel} {ps : List Pixel} (hpull : d.Pull p t) (htail : PullsTo t ps u) :
      PullsTo d (p :: ps) u

namespace State.PullsTo
variable {d t u : State} {ps qs : List Pixel}

theorem append (h : d.PullsTo ps t) (h' : t.PullsTo qs u) : d.PullsTo (ps ++ qs) u := by
  induction h with
  | nil => exact h'
  | cons hpull _ ih => exact .cons hpull (ih h')

/-- As many DECODE_NEXT commands, off the front of the port (R223). -/
theorem stepN_eq (h : d.PullsTo ps u) (k : Nat) :
    stepN ps.length (d.withCommands (pulls (ps.length + k))) = .next (u.withCommands (pulls k)) := by
  induction h with
  | nil d => rw [List.length_nil, Nat.zero_add, stepN_zero]
  | @cons d t u p ps hpull _ ih =>
    have hport : pulls ((p :: ps).length + k) = Request.bare 0x03 :: pulls (ps.length + k) := by
      rw [List.length_cons, Nat.add_right_comm]
      rfl
    have hstep : step (d.withCommands (pulls ((p :: ps).length + k))) =
        .next (t.withCommands (pulls (ps.length + k))) := by
      rw [hport, step_withCommands]
      exact hpull.exec_eq _
    exact (stepN_succ hstep _).trans ih

theorem responses_eq (h : d.PullsTo ps u) : u.responses = d.responses ++ ps.map .pixel := by
  induction h with
  | nil => simp
  | cons hpull _ ih =>
    obtain ⟨-, hpixel, -⟩ := hpull.outputs
    rw [ih, hpixel, hpull.px, List.append_assoc]
    rfl

/-- IN is read, never written (R28). -/
theorem inBytes_eq (h : d.PullsTo ps u) : u.inBytes = d.inBytes := by
  induction h with
  | nil => rfl
  | cons hpull _ ih =>
    obtain ⟨-, -, -, -, hinput, -⟩ := hpull.outputs
    rw [ih, State.inBytes, hinput, State.inBytes]

theorem counting {n j : Nat} (h : d.PullsTo ps u) (hd : d.Counting n j) :
    u.Counting n (j + ps.length) := by
  induction h generalizing j with
  | nil => exact hd
  | cons hpull _ ih =>
    rw [List.length_cons, Nat.add_comm _ 1, ← Nat.add_assoc]
    exact ih (hd.outputs hpull.outputs)

/-- Pulls keep the invariant (R31). -/
theorem inv (h : d.PullsTo ps u) (hd : d.Inv) : u.Inv := by
  induction h with
  | nil => exact hd
  | @cons d t u p ps hpull _ ih =>
    have heffect : CommandEffect (d.withCommands []) (Request.bare 0x03) (t.withCommands []) :=
      commandEffect_of_exec (hpull.exec_eq [])
    exact ih ((heffect.inv (hd.issue [])).issue t.commands)

/-! ### Pulls from the start of a decode pass -/

section
variable {s : State} {n : Nat} {bytes : List Byte} (h : (s.passStart n bytes).PullsTo ps t)
include h

theorem counting_passStart (hn : n < 2 ^ 64) : t.Counting n ps.length :=
  Nat.zero_add ps.length ▸ h.counting (.passStart s hn bytes)

theorem responses_passStart : t.responses = s.responses ++ .ok :: ps.map .pixel :=
  h.responses_eq.trans (List.append_assoc _ _ _)

theorem inv_passStart : t.Inv :=
  h.inv ((State.Inv.startDecodePass _ _ _).respond _)

/-- The pulls of the pass that are left (R230). -/
theorem stepN_decodePass {k : Nat} (hk : ps.length + k = n) :
    stepN (n + 1) (s.withCommands (decodePass n bytes)) = stepN k (t.withCommands (pulls k)) := by
  subst hk
  rw [stepN_succ (step_decodePass s _ bytes)]
  exact stepN_add (h.stepN_eq k) k

end

end State.PullsTo

/-- The pull of a queued repeat (R131). -/
theorem pull_queued {d : State} (hdecoding : d.Decoding) (hrun : d.run ≠ 0) :
    d.Pull d.px (d.withRun (d.run - 1)).emitPixel where
  outputs := .emitPixel (s := d.withRun _) hdecoding
  px := rfl
  exec_eq cs := exec_decodeNext_queued (s := d.withCommands cs) hdecoding hrun

/-- The pull of a RUN (R138). -/
theorem pull_run {d : State} (hawaiting : d.Awaiting) {len k : Nat}
    (hd : decodeOpcode (d.inBytes.drop d.inPos) = .ok (.run len, k)) :
    d.Pull d.px ((d.advance 1).withRun (BitVec.ofNat 6 (len - 1))).emitPixel where
  outputs := .emitPixel (s := (d.advance 1).withRun _) hawaiting.1
  px := rfl
  exec_eq cs := (exec_decodeNext_opcode (s := d.withCommands cs) hawaiting hd).trans
    (exec_run_dec (s := (d.withCommands cs).advance 1) hawaiting.1.1 len)

/-- The pull of an opcode that resolves `px` (R130, R139). -/
theorem pull_resolved {d : State} (hawaiting : d.Awaiting) {i : Instr} {k : Nat} {px : Pixel}
    (hd : decodeOpcode (d.inBytes.drop d.inPos) = .ok (i, k))
    (hi : ∀ cs, DecodesTo i ((d.withCommands cs).advance i.byteLength) px) :
    d.Pull px ((d.advance i.byteLength).resolve px).emitPixel where
  outputs := .emitPixel (s := (d.advance _).resolve px) hawaiting.1
  px := rfl
  exec_eq cs := (exec_decodeNext_opcode (s := d.withCommands cs) hawaiting hd).trans (hi cs).exec_eq

/-- As many pulls as repeats are queued output PX that often (R131). -/
theorem pullsTo_queued {n : Nat} (k : Nat) {j : Nat} {d : State} (hcounting : d.Counting n j)
    (hqueued : d.run.toNat = k) (hbudget : j + k ≤ n) :
    ∃ t, d.PullsTo (List.replicate k d.px) t ∧ t.run = 0 ∧ t.px = d.px ∧ t.cache = d.cache ∧
      t.inPos = d.inPos := by
  induction k generalizing j d with
  | zero => exact ⟨d, .nil d, BitVec.eq_of_toNat_eq hqueued, rfl, rfl, rfl⟩
  | succ k ih =>
    have hrun : d.run ≠ 0 := by bv_omega
    have hleft : (d.run - 1).toNat = k := by rw [toNat_run_sub_one hrun, hqueued, Nat.add_sub_cancel]
    have hpull := pull_queued (hcounting.decoding (by omega)) hrun
    obtain ⟨t, hpulls, hend⟩ := ih (hcounting.outputs hpull.outputs) hleft (by omega)
    exact ⟨t, .cons hpull hpulls, hend⟩

/-- The pulls of a RUN output PX as often as it says (R138). -/
theorem pullsTo_run {n j len : Nat} {d : State} (hcounting : d.Counting n j) (hrun : d.run = 0)
    (hlen : 1 ≤ len ∧ len ≤ 62) (hbudget : j + len ≤ n) {k : Nat}
    (hd : decodeOpcode (d.inBytes.drop d.inPos) = .ok (.run len, k)) :
    ∃ t, d.PullsTo (List.replicate len d.px) t ∧ t.run = 0 ∧ t.px = d.px ∧ t.cache = d.cache ∧
      t.inPos = d.inPos + 1 := by
  have hpull := pull_run ⟨hcounting.decoding (by omega), hrun⟩ hd
  obtain ⟨t, hpulls, hend⟩ := pullsTo_queued (len - 1) (hcounting.outputs hpull.outputs)
    (toNat_queued (wf_run_iff.mpr hlen)) (by omega)
  refine ⟨t, ?_, hend⟩
  rw [← Nat.sub_add_cancel hlen.1]
  exact .cons hpull hpulls

/-! ## The decoder behind the encoder -/

/-- The decoder has read what the encoder has written, and both hold the same CACHE and PX (R284). The
encoder's pending run is not written yet. -/
structure State.Follows (d e : State) : Prop where
  cache : d.cache = e.cache
  px : d.px = e.px
  run : d.run = 0
  inPos : d.inPos = e.out.length

/-- What the encoder writes next is what the decoder reads next. -/
theorem State.Follows.decodeOpcode_eq {d e : State} (h : d.Follows e) {i : Instr} (hwf : i.wf = true)
    (hop : i.isOpcode = true) (hprefix : (e.emit i).out <+: d.inBytes) :
    decodeOpcode (d.inBytes.drop d.inPos) = .ok (i, i.byteLength) := by
  obtain ⟨rest, hbytes⟩ := hprefix
  rw [← hbytes, h.inPos, State.out_emit, List.append_assoc, List.drop_left]
  exact decodeOpcode_encodeStream hwf hop rest

/-- The decoder takes in a flushed run (R172). -/
theorem State.Follows.flushRun {n j : Nat} {d e : State} (h : d.Follows e) (hcounting : d.Counting n j)
    (hrun : e.run.toNat ≤ 62) (hbudget : j + e.run.toNat ≤ n) (hprefix : e.flushRun.out <+: d.inBytes) :
    ∃ t, d.PullsTo (List.replicate e.run.toNat e.px) t ∧ t.Follows e.flushRun := by
  by_cases hnone : e.run = 0
  · have hsame : e.flushRun = e := if_neg (not_not.mpr hnone)
    rw [hnone, hsame]
    exact ⟨d, .nil d, h⟩
  · have hlen : 1 ≤ e.run.toNat ∧ e.run.toNat ≤ 62 := by
      refine ⟨?_, hrun⟩
      bv_omega
    have hflush : e.flushRun = e.emitRun := if_pos hnone
    rw [hflush] at hprefix ⊢
    have hd := h.decodeOpcode_eq (wf_run_iff.mpr hlen) rfl hprefix
    obtain ⟨t, hpulls, hrun', hpx, hcache, hpos⟩ := pullsTo_run hcounting h.run hlen hbudget hd
    rw [h.px] at hpulls hpx
    refine ⟨t, hpulls, hcache.trans h.cache, hpx, hrun', ?_⟩
    rw [hpos, h.inPos, State.out_emitRun, List.length_append]
    rfl

/-- The decoder takes in the selected opcode of a new pixel (R117, R174, R284). -/
theorem State.Follows.select {d e : State} (h : d.Follows e) (hdecoding : d.Decoding) (px : Pixel)
    (hprefix : (e.emit (e.select px)).out <+: d.inBytes) :
    ∃ t, d.PullsTo [px] t ∧ t.Follows (((e.emit (e.select px)).cacheUpdate px).acceptPixel px) := by
  have hi (cs : List Request) (k : Nat) : DecodesTo (e.select px) ((d.withCommands cs).advance k) px := by
    rw [← State.select_congr (d := (d.withCommands cs).advance k) h.cache h.px]
    exact decodesTo_select (d := (d.withCommands cs).advance k) hdecoding.1 px
  have hd := h.decodeOpcode_eq (hi [] 0).wf (hi [] 0).isOpcode hprefix
  refine ⟨_, .cons (pull_resolved ⟨hdecoding, h.run⟩ hd fun cs => hi cs _) (.nil _), ?_, rfl, h.run, ?_⟩
  · simp [h.cache]
  · simp [h.inPos, length_encodeStream]

/-- A pixel equal to PX makes the run longer, and a full run is flushed (R171). -/
theorem State.encodeBody_same (e : State) :
    e.encodeBody e.px =
      if e.run.toNat = 61 then (e.withRun (e.run + 1)).flushRun else e.withRun (e.run + 1) := by
  rw [State.encodeBody, if_pos rfl, State.continueRun]
  refine if_ctx_congr toNat_add_one_eq_runMax (fun hfull => ?_) fun _ => rfl
  have hrun : (e.withRun (e.run + 1)).run ≠ 0 := by
    rw [State.run_withRun]
    bv_omega
  exact (if_pos hrun).symm

/-- One encode step, with the decoder behind it: it takes in what the step writes, and what it has not yet
output are the pending repeats (R284). -/
theorem State.Follows.accept {n j : Nat} {d e : State} (h : d.Follows e) (hcounting : d.Counting n j)
    (hrun : e.run.toNat ≤ 61) (hbudget : j + e.run.toNat < n) (px : Pixel)
    (hprefix : (e.encodeBody px).out <+: d.inBytes) :
    ∃ shown t, d.PullsTo shown t ∧ t.Follows ((e.encodeBody px).acceptPixel px) ∧
      shown ++ List.replicate (e.encodeBody px).run.toNat px =
        List.replicate e.run.toNat e.px ++ [px] := by
  by_cases hsame : px = e.px
  · subst hsame
    have hlonger : d.Follows (e.withRun (e.run + 1)) := { h with }
    have hnext : (e.withRun (e.run + 1)).run.toNat = e.run.toNat + 1 := by
      rw [State.run_withRun]
      bv_omega
    rw [← List.replicate_succ', State.encodeBody_same]
    rw [State.encodeBody_same] at hprefix
    split at hprefix
    next hfull =>
      obtain ⟨t, hpulls, hfollows⟩ := hlonger.flushRun hcounting (by omega) (by omega) hprefix
      rw [hnext] at hpulls
      rw [if_pos hfull]
      refine ⟨_, t, hpulls, { hfollows with px := ?_ }, ?_⟩
      · exact hfollows.px.trans (State.px_flushRun _)
      · simp
    next hfull =>
      rw [if_neg hfull, hnext]
      exact ⟨[], d, .nil d, { hlonger with }, rfl⟩
  · have hnew : e.encodeBody px = (e.flushRun.emit (e.flushRun.select px)).cacheUpdate px :=
      if_neg hsame
    rw [hnew] at hprefix ⊢
    have hflushed : e.flushRun.out <+: d.inBytes := (List.prefix_append _ _).trans hprefix
    obtain ⟨t, hpulls, hfollows⟩ := h.flushRun hcounting (by omega) (by omega) hflushed
    have hdecoding : t.Decoding := (hpulls.counting hcounting).decoding (by simpa using hbudget)
    obtain ⟨u, hpulls', hfollows'⟩ := hfollows.select hdecoding px (hpulls.inBytes_eq ▸ hprefix)
    exact ⟨_, u, hpulls.append hpulls', hfollows', by simp⟩

/-! ## The encoder's invariant -/

/-- The encoder has accepted the pixels `ps`: a decoder over any stream that begins with what is written
outputs them all but the pending repeats, and then follows the encoder. -/
def State.Explains (e : State) (ps : List Pixel) : Prop :=
  ∀ (s : State) (n : Nat) (bytes : List Byte), n < 2 ^ 64 → ps.length ≤ n → e.out <+: bytes →
    ∃ shown t, (s.passStart n bytes).PullsTo shown t ∧ t.Follows e ∧
      shown ++ List.replicate e.run.toNat e.px = ps

/-- At pass start nothing is written, and both sides hold the start values (R37). -/
theorem State.Explains.startEncodePass (s : State) (n : BitVec 64) : (s.startEncodePass n).Explains [] :=
  fun s' m bytes _ _ _ => ⟨[], s'.passStart m bytes, .nil _, ⟨rfl, rfl, rfl, rfl⟩, rfl⟩

/-- The ports are nothing to the streams. -/
theorem State.Explains.ports {e : State} {ps : List Pixel} (h : e.Explains ps) (cs : List Request)
    (xs : List Response) : ({ e with commands := cs, responses := xs } : State).Explains ps := by
  intro s n bytes hn hlength hprefix
  obtain ⟨shown, t, hpulls, hfollows, hshown⟩ := h s n bytes hn hlength hprefix
  exact ⟨shown, t, hpulls, { hfollows with }, hshown⟩

/-- An accepted pixel is explained with those before it (R170). -/
theorem State.Explains.accept {e : State} {ps : List Pixel} (h : e.Explains ps)
    (hrun : e.run.toNat ≤ 61) (px : Pixel) :
    ((e.encodeBody px).acceptPixel px).Explains (ps ++ [px]) := by
  intro s n bytes hn hlength hprefix
  rw [List.length_append, List.length_singleton] at hlength
  have hbody : e.out <+: (e.encodeBody px).out := by
    rw [State.out_encodeBody]
    exact List.prefix_append _ _
  obtain ⟨shown, t, hpulls, hfollows, hshown⟩ := h s n bytes hn (by omega) (hbody.trans hprefix)
  have hcount : shown.length + e.run.toNat = ps.length := by simp [← hshown]
  obtain ⟨shown', u, hpulls', hfollows', hshown'⟩ :=
    hfollows.accept (hpulls.counting_passStart hn) hrun (by omega) px
      (hpulls.inBytes_eq ▸ hprefix)
  refine ⟨_, u, hpulls.append hpulls', hfollows', ?_⟩
  calc shown ++ shown' ++ List.replicate (e.encodeBody px).run.toNat px
      = shown ++ (List.replicate e.run.toNat e.px ++ [px]) := by rw [List.append_assoc, hshown']
    _ = ps ++ [px] := by rw [← List.append_assoc, hshown]

/-- Once the run is flushed, a decoder over what Finish wrote outputs all the pixels and stands at the end
marker (R184). -/
theorem State.Explains.finish {e : State} {ps : List Pixel} (h : e.Explains ps)
    (hrun : e.run.toNat ≤ 61) (s : State) {n : Nat} (hn : n < 2 ^ 64) (hlength : ps.length ≤ n) :
    ∃ t, (s.passStart n e.finish.out).PullsTo ps t ∧ t.Follows e.flushRun := by
  have hflushed : e.flushRun.out <+: e.finish.out := List.prefix_append _ _
  obtain ⟨shown, t, hpulls, hfollows, hshown⟩ := h s n _ hn hlength (State.out_prefix_finish e)
  have hcount : shown.length + e.run.toNat = ps.length := by simp [← hshown]
  obtain ⟨u, hpulls', hfollows'⟩ :=
    hfollows.flushRun (hpulls.counting_passStart hn) (by omega) (by omega)
      (hpulls.inBytes_eq ▸ hflushed)
  exact ⟨u, hshown ▸ hpulls.append hpulls', hfollows'⟩

/-! ## An encode pass -/

/-- The step of an ENCODE_PIXEL command in a running pass (R224). -/
theorem step_pixelRequest {e : State} (h : e.Encoding) {px : Pixel} {rest : List Request}
    (hcommands : e.commands = pixelRequest px :: rest) :
    step e = .next (((e.withCommands rest).encodeStep px).respond .ok) := by
  have hdecode : decodeCommand (pixelRequest px) = .encodePixel px :=
    congrArg Instr.encodePixel px.unpack_pack
  obtain ⟨hmode, hphase, -⟩ := h
  rw [step_of_command hcommands, hdecode]
  exact exec_encodePixel_active (s := e.withCommands rest) hmode hphase px

/-- A pixel that leaves budget keeps the pass running (R170, R183). -/
theorem State.Encoding.step_pixel {e : State} (h : e.Encoding) {done : List Pixel}
    (hexplains : e.Explains done) (hbudget : e.remaining ≠ 1) {px : Pixel} {rest : List Request}
    (hcommands : e.commands = pixelRequest px :: rest) :
    ∃ t, step e = .next t ∧ t.Encoding ∧ t.Explains (done ++ [px]) ∧ t.commands = rest ∧
      t.remaining = e.remaining - 1 := by
  have hstep := step_pixelRequest h hcommands
  obtain ⟨hmode, hphase, -, hrun⟩ := h
  have hleft : e.remaining - 1 ≠ 0 := remaining_sub_one_eq_zero.not.mpr hbudget
  have haccept : (e.withCommands rest).encodeStep px =
      ((e.withCommands rest).encodeBody px).acceptPixel px := if_neg (by simpa using hleft)
  have hexplains' : (e.withCommands rest).Explains done := hexplains.ports _ _
  rw [haccept] at hstep
  refine ⟨_, hstep, ⟨?_, ?_, ?_, ?_⟩, (hexplains'.accept hrun px).ports _ _, ?_, ?_⟩
  · simpa using hmode
  · simpa using hphase
  · simpa using hleft
  · exact State.toNat_run_encodeBody_le (s := e.withCommands rest) hrun px
  · simp
  · simp

/-- The pixel that uses up the budget finishes the pass (R183). -/
theorem State.Encoding.step_last_pixel {e : State} (h : e.Encoding) {done : List Pixel}
    (hexplains : e.Explains done) (hbudget : e.remaining = 1) {px : Pixel}
    (hcommands : e.commands = [pixelRequest px]) :
    ∃ u : State, step e = .next (u.finish.respond .ok) ∧ u.Explains (done ++ [px]) ∧
      u.run.toNat ≤ 61 := by
  have hstep := step_pixelRequest h hcommands
  obtain ⟨-, -, -, hrun⟩ := h
  have hused : e.remaining - 1 = 0 := remaining_sub_one_eq_zero.mpr hbudget
  have hfinish : (e.withCommands []).encodeStep px =
      (((e.withCommands []).encodeBody px).acceptPixel px).finish := if_pos (by simpa using hused)
  have hexplains' : (e.withCommands []).Explains done := hexplains.ports _ _
  rw [hfinish] at hstep
  exact ⟨_, hstep, hexplains'.accept hrun px,
    State.toNat_run_encodeBody_le (s := e.withCommands []) hrun px⟩

/-- ENCODE_PIXEL commands that leave budget (R224, R230). -/
theorem stepN_pixelRequests (ps : List Pixel) {e : State} {done : List Pixel} {cs : List Request}
    (h : e.Encoding) (hexplains : e.Explains done) (hbudget : ps.length < e.remaining.toNat)
    (hcommands : e.commands = ps.map pixelRequest ++ cs) :
    ∃ t, stepN ps.length e = .next t ∧ t.Encoding ∧ t.Explains (done ++ ps) ∧ t.commands = cs ∧
      t.remaining.toNat + ps.length = e.remaining.toNat := by
  induction ps generalizing e done with
  | nil => exact ⟨e, rfl, h, by rwa [List.append_nil], hcommands, rfl⟩
  | cons px ps ih =>
    rw [List.length_cons] at hbudget ⊢
    obtain ⟨u, hstep, hu, hexplains', hcommands', hcount⟩ :=
      h.step_pixel hexplains (by bv_omega) hcommands
    have hlower : u.remaining.toNat + 1 = e.remaining.toNat := by
      rw [hcount]
      bv_omega
    obtain ⟨t, hrun, ht, hexplains'', hcommands'', hcount'⟩ := ih hu hexplains' (by omega) hcommands'
    refine ⟨t, (stepN_succ hstep _).trans hrun, ht, ?_, hcommands'', by omega⟩
    rwa [List.append_cons]

/-- An encode pass up to a command `c` that comes before the budget is used up (R222, R230). -/
theorem stepN_encodePass (s : State) {n : Nat} (hn : n < 2 ^ 64) (ps : List Pixel) (hlength : ps.length < n)
    (c : Request) :
    ∃ t, stepN (ps.length + 1) (s.withCommands (encodePass n ps ++ [c])) = .next t ∧ t.Encoding ∧
      t.Explains ps ∧ t.commands = [c] ∧ t.remaining.toNat + ps.length = n := by
  have hcount : (BitVec.ofNat 64 n).toNat = n := Nat.mod_eq_of_lt hn
  have hpos : BitVec.ofNat 64 n ≠ 0 := by bv_omega
  have hstep : step (s.withCommands (encodePass n ps ++ [c])) =
      .next (((s.withCommands (ps.map pixelRequest ++ [c])).startEncodePass (BitVec.ofNat 64 n)).respond
        .ok) :=
    (step_withCommands s _ _).trans (exec_startEncode_pos _ hpos)
  obtain ⟨t, hrun, ht, hexplains, hcommands, hremaining⟩ := stepN_pixelRequests ps
    (e := ((s.withCommands (ps.map pixelRequest ++ [c])).startEncodePass (BitVec.ofNat 64 n)).respond .ok)
    ⟨rfl, rfl, hpos, Nat.zero_le _⟩ ((State.Explains.startEncodePass _ _).ports _ _)
    (hlength.trans_eq hcount.symm) rfl
  exact ⟨t, (stepN_succ hstep _).trans hrun, ht, hexplains, hcommands, hremaining.trans hcount⟩

/-! ## The round trip -/

/-- Settles O51: the last pixel finishes the encode pass, and the decode pass ends at the end marker. -/
theorem encodeThenDecodeGivesPixelsBack : Obligations.EncodeThenDecodeGivesPixelsBack := by
  intro s ps hpos hn
  obtain ⟨init, last, rfl⟩ : ∃ init last, ps = init ++ [last] :=
    ⟨_, _, (List.dropLast_concat_getLast (List.ne_nil_of_length_pos hpos)).symm⟩
  have hlength : (init ++ [last]).length = init.length + 1 := List.length_append
  obtain ⟨t, hrun, hencoding, hexplains, hcommands, hcount⟩ :=
    stepN_encodePass s hn init (by omega) (pixelRequest last)
  obtain ⟨u, hlast, hexplains', hpending⟩ :=
    hencoding.step_last_pixel hexplains (by bv_omega) hcommands
  obtain ⟨d, hpulls, hfollows⟩ := hexplains'.finish hpending (u.finish.respond .ok) hn le_rfl
  refine ⟨u.finish.respond .ok, d.withCommands [], ?_, rfl, hpulls.stepN_decodePass (k := 0) rfl,
    (hpulls.counting_passStart hn).done.1, hpulls.responses_passStart, ?_, ?_, ?_⟩
  · have hcommands' : encodePass (init ++ [last]).length (init ++ [last]) =
        encodePass (init ++ [last]).length init ++ [pixelRequest last] := by
      simp [encodePass]
    rw [hcommands', hlength, stepN_add (hlength ▸ hrun) 1, stepN_succ hlast, stepN_zero]
  · have hmarker : (u.finish.respond .ok).out.length = u.flushRun.out.length + 8 := List.length_append
    rw [hmarker, ← hfollows.inPos]
    rfl
  · exact hfollows.cache.trans (by simp)
  · exact hfollows.px.trans (by simp)

/-! ## Short input -/

/-- INDEX opcodes at IN_POS whose pixels all stand in the slots they hash to, the last one excepted: the
pixels are those the slots held before (R92, R135). -/
theorem pullsTo_index {n : Nat} (slots : List SlotIndex) {rest : List Byte} {j : Nat} {d : State}
    (hcounting : d.Counting n j) (hrun : d.run = 0) (hbudget : j + slots.length ≤ n)
    (hkeep : ∀ i ∈ slots.dropLast, slotHash (d.readSlot i) = i)
    (hbytes : d.inBytes.drop d.inPos = slots.map indexByte ++ rest) :
    ∃ t, d.PullsTo (slots.map d.readSlot) t ∧ t.run = 0 ∧ t.inPos = d.inPos + slots.length := by
  induction slots generalizing j d with
  | nil => exact ⟨d, .nil d, hrun, rfl⟩
  | cons i slots ih =>
    rw [List.length_cons] at hbudget ⊢
    have hawaiting : d.Awaiting := ⟨hcounting.decoding (by omega), hrun⟩
    have hd : decodeOpcode (d.inBytes.drop d.inPos) = .ok (.index i, 1) :=
      hbytes ▸ decodeOpcode_index i (slots.map indexByte ++ rest)
    have hpull := pull_resolved hawaiting (px := d.readSlot i) hd fun cs =>
      ⟨rfl, rfl, exec_index_dec (s := (d.withCommands cs).advance 1) hawaiting.1.1 i⟩
    cases slots with
    | nil => exact ⟨_, .cons hpull (.nil _), hrun, rfl⟩
    | cons i' slots =>
      have hslots (k : SlotIndex) :
          ((d.advance (Instr.index i).byteLength).resolve (d.readSlot i)).emitPixel.readSlot k =
            d.readSlot k := by
        rw [State.readSlot_emitPixel, State.readSlot_resolve, hkeep i List.mem_cons_self]
        split
        next hk => rw [hk]
        next => rfl
      have htail : d.inBytes.drop (d.inPos + 1) = (i' :: slots).map indexByte ++ rest := by
        rw [← List.drop_drop, hbytes]
        rfl
      obtain ⟨t, hpulls, hrun', hpos⟩ := ih (hcounting.outputs hpull.outputs) hrun (by omega)
        (fun k hk => by
          rw [hslots]
          exact hkeep k (List.mem_cons_of_mem i hk))
        htail
      simp only [funext hslots] at hpulls
      refine ⟨t, .cons hpull hpulls, hrun', hpos.trans ?_⟩
      rw [Nat.add_comm _ 1, ← Nat.add_assoc]
      rfl

/-- Slot 0 holds a pixel that hashes to 0 (R31 (1)). -/
theorem State.Inv.slotHash_readSlot_zero {s : State} (h : s.Inv) : slotHash (s.readSlot 0) = 0 := by
  obtain hslot | hslot := h.slots 0
  · rw [hslot]
    rfl
  · exact hslot

/-- The end marker, or a first part of it, read as pixels (R92). -/
theorem pullsTo_marker {n j m : Nat} {d : State} (hinv : d.Inv) (hcounting : d.Counting n j)
    (hrun : d.run = 0) (hm : m ≤ 8) (hbudget : j + m ≤ n)
    (hbytes : d.inBytes.drop d.inPos = Config.endMarker) :
    ∃ t, d.PullsTo ((markerPixels d).take m) t ∧ t.run = 0 ∧ t.inPos = d.inPos + m := by
  have hfirst : ∀ m ≤ 8, ∀ i ∈ (markerSlots.take m).dropLast, i = 0 := by decide
  have hlength : (markerSlots.take m).length = m := List.length_take_of_le hm
  have hsplit : Config.endMarker =
      (markerSlots.take m).map indexByte ++ (markerSlots.drop m).map indexByte := by
    rw [← List.map_append, List.take_append_drop]
    rfl
  have hpulls := pullsTo_index (markerSlots.take m) hcounting hrun (by rwa [hlength])
    (fun i hi => by
      rw [hfirst m hm i hi]
      exact hinv.slotHash_readSlot_zero)
    (hbytes.trans hsplit)
  rwa [hlength, List.map_take] at hpulls

theorem length_take_markerPixels (s : State) {m : Nat} (hm : m ≤ 8) :
    ((markerPixels s).take m).length = m :=
  List.length_take_of_le hm

/-- A decoder over what Finish wrote outputs all the pixels, and reads on into the end marker as far as the
count asks (R187). -/
theorem State.Explains.marker {e : State} {ps : List Pixel} (h : e.Explains ps)
    (hrun : e.run.toNat ≤ 61) (s : State) {n m : Nat} (hn : n < 2 ^ 64) (hm : m ≤ 8)
    (hlength : ps.length + m ≤ n) :
    ∃ t, (s.passStart n e.finish.out).PullsTo (ps ++ (markerPixels e).take m) t ∧ t.run = 0 ∧
      t.inPos + 8 = e.finish.out.length + m := by
  obtain ⟨t, hpulls, hfollows⟩ := h.finish hrun s hn (by omega)
  have hbytes : t.inBytes.drop t.inPos = Config.endMarker := by
    rw [hpulls.inBytes_eq, hfollows.inPos]
    exact List.drop_left
  obtain ⟨u, hpulls', hrun', hpos⟩ :=
    pullsTo_marker hpulls.inv_passStart (hpulls.counting_passStart hn) hfollows.run hm hlength hbytes
  have hmarker : markerPixels t = markerPixels e := by
    simp [markerPixels, State.readSlot_congr hfollows.cache]
  have hout : e.finish.out.length = e.flushRun.out.length + 8 := List.length_append
  exact ⟨u, hmarker ▸ hpulls.append hpulls', hrun', by rw [hpos, hfollows.inPos, hout]; omega⟩

/-- A failed pass answers END to every pull (R255). -/
theorem stepN_pulls_failed (k : Nat) {s : State} (h : s.Failed) :
    ∃ t, stepN k (s.withCommands (pulls k)) = .next t ∧ t.Failed ∧
      t.responses = s.responses ++ List.replicate k .endOfPass := by
  induction k generalizing s with
  | zero => exact ⟨s.withCommands [], rfl, h, (List.append_nil _).symm⟩
  | succ k ih =>
    have hfailed : (s.respond .endOfPass).Failed := h
    obtain ⟨hmode, hphase, -⟩ := h
    obtain ⟨t, hrun, ht, hresponses⟩ := ih hfailed
    have hstep : step (s.withCommands (pulls (k + 1))) =
        .next ((s.respond .endOfPass).withCommands (pulls k)) :=
      (step_withCommands s _ _).trans
        (exec_decodeNext_ended (s := s.withCommands (pulls k)) hmode (.inr hphase))
    refine ⟨t, (stepN_succ hstep k).trans hrun, ht, ?_⟩
    rw [hresponses, State.responses_respond, List.append_assoc]
    rfl

/-- A pull at the end of IN fails, and the pulls after it answer END (R251, R254, R255). -/
theorem stepN_pulls_starved (k : Nat) {s : State} (hdecoding : s.Decoding) (hstarved : s.Starved) :
    ∃ t, stepN (k + 1) (s.withCommands (pulls (k + 1))) = .next t ∧ t.Failed ∧
      t.responses = s.responses ++ .fail .truncatedInput :: List.replicate k .endOfPass := by
  obtain ⟨hmode, hphase, -⟩ := hdecoding
  obtain ⟨hrun, hd⟩ := hstarved
  have hstep : step (s.withCommands (pulls (k + 1))) =
      .next ((s.faultEntry .truncatedInput).withCommands (pulls k)) :=
    (step_withCommands s _ _).trans <|
      (exec_decodeNext_active (s := s.withCommands (pulls k)) hmode hphase).trans
        (decodeStep_truncated (s := s.withCommands (pulls k)) hrun hd)
  obtain ⟨t, hpulls, ht, hresponses⟩ :=
    stepN_pulls_failed k (s := s.faultEntry .truncatedInput) ⟨hmode, rfl, rfl⟩
  refine ⟨t, (stepN_succ hstep k).trans hpulls, ht, ?_⟩
  rw [hresponses, State.responses_faultEntry, List.append_assoc]
  rfl

/-- A count that asks for no more than the marker's 8 pixels is met (R187). -/
theorem State.Explains.stepN_decodePass_done {e : State} {ps : List Pixel} (h : e.Explains ps)
    (hrun : e.run.toNat ≤ 61) (s : State) {n : Nat} (hn : n < 2 ^ 64) (hlength : ps.length ≤ n)
    (hfew : n - ps.length ≤ 8) :
    ∃ d, stepN (n + 1) (s.withCommands (decodePass n e.finish.out)) = .next d ∧ d.phase = .done ∧
      d.inPos + 8 = e.finish.out.length + (n - ps.length) ∧
      d.responses = s.responses ++ .ok :: ps.map .pixel ++
        ((markerPixels e).take (n - ps.length)).map .pixel := by
  obtain ⟨d, hpulls, -, hpos⟩ := h.marker hrun s hn hfew (by omega)
  have hall : (ps ++ (markerPixels e).take (n - ps.length)).length = n := by
    rw [List.length_append, length_take_markerPixels e hfew]
    omega
  have hcounting := hpulls.counting_passStart hn
  rw [hall] at hcounting
  refine ⟨d.withCommands [], hpulls.stepN_decodePass (k := 0) hall, hcounting.done.1, hpos, ?_⟩
  exact hpulls.responses_passStart.trans (by simp)

/-- A count that asks for more runs into the end of IN behind the marker (R187, R254, R255). -/
theorem State.Explains.stepN_decodePass_failed {e : State} {ps : List Pixel} (h : e.Explains ps)
    (hrun : e.run.toNat ≤ 61) (s : State) {n : Nat} (hn : n < 2 ^ 64) (hmany : 8 < n - ps.length) :
    ∃ d, stepN (n + 1) (s.withCommands (decodePass n e.finish.out)) = .next d ∧ d.Failed ∧
      d.responses = s.responses ++ .ok :: ps.map .pixel ++ ((markerPixels e).map .pixel ++
        .fail .truncatedInput :: List.replicate (n - ps.length - 9) .endOfPass) := by
  obtain ⟨t, hpulls, hrun', hpos⟩ := h.marker hrun s hn le_rfl (by omega)
  have hwhole : (markerPixels e).take 8 = markerPixels e := rfl
  rw [hwhole] at hpulls
  have hlength : (ps ++ markerPixels e).length = ps.length + 8 := List.length_append
  have hstarved : t.Starved := by
    have hend : t.inBytes.length ≤ t.inPos := by
      rw [hpulls.inBytes_eq]
      exact (Nat.add_right_cancel hpos).ge
    refine ⟨hrun', ?_⟩
    rw [List.drop_eq_nil_of_le hend]
    rfl
  obtain ⟨d, hfail, hfailed, hresponses⟩ := stepN_pulls_starved (n - ps.length - 9)
    ((hpulls.counting_passStart hn).decoding (by omega)) hstarved
  refine ⟨d, (hpulls.stepN_decodePass (by omega)).trans hfail, hfailed, ?_⟩
  rw [hresponses, hpulls.responses_passStart]
  simp

/-- ENCODE_FINISH before the budget is used up (R184, R225). -/
theorem stepN_encodePass_finish (s : State) {n : Nat} (hn : n < 2 ^ 64) (ps : List Pixel)
    (hlength : ps.length < n) :
    ∃ u : State, stepN (ps.length + 2) (s.withCommands (encodePass n ps ++ [Request.bare 0x05])) =
        .next (u.finish.respond .ok) ∧ u.Explains ps ∧ u.run.toNat ≤ 61 := by
  obtain ⟨t, hrun, ⟨hmode, hphase, -, hpending⟩, hexplains, hcommands, -⟩ :=
    stepN_encodePass s hn ps hlength (Request.bare 0x05)
  have hstep : step t = .next ((t.withCommands []).finish.respond .ok) := by
    rw [step_of_command hcommands]
    exact exec_encodeFinish_active (s := t.withCommands []) hmode hphase
  refine ⟨t.withCommands [], ?_, hexplains.ports _ _, hpending⟩
  rw [stepN_add hrun 1, stepN_succ hstep, stepN_zero]

/-- Settles O52: the pixels given, then the marker's, then the fault at the end of IN. -/
theorem shortInputDecodesThenRunsIntoMarker : Obligations.ShortInputDecodesThenRunsIntoMarker := by
  intro s ps n hlength hn
  obtain ⟨u, hencode, hexplains, hpending⟩ := stepN_encodePass_finish s hn ps hlength
  have hmarker : markerPixels (u.finish.respond .ok) = markerPixels u := by simp [markerPixels]
  by_cases hfew : n - ps.length ≤ 8
  · obtain ⟨d, hdecode, hphase, hpos, hresponses⟩ :=
      hexplains.stepN_decodePass_done hpending (u.finish.respond .ok) hn hlength.le hfew
    exact ⟨_, d, _, hencode, rfl, hdecode, hresponses, fun _ => ⟨hphase, hpos, by rw [hmarker]⟩,
      fun hmany => absurd hfew hmany.not_ge⟩
  · obtain ⟨d, hdecode, ⟨-, hphase, hcause⟩, hresponses⟩ :=
      hexplains.stepN_decodePass_failed hpending (u.finish.respond .ok) hn (Nat.lt_of_not_ge hfew)
    exact ⟨_, d, _, hencode, rfl, hdecode, hresponses, fun hfew' => absurd hfew' hfew,
      fun _ => ⟨hphase, hcause, by rw [hmarker]⟩⟩

end Sys2Proof.Machine
end

section
/-! Proofs of family 43_commands.md (R220 to R229): what each command answers and sets. -/

namespace Sys2Proof.Machine

/-! ## One response for each command -/

/-- Every effect of a command is one more response, and none touches the port again (R228). -/
theorem CommandEffect.one_response {s t : State} {c : Request} (h : CommandEffect s c t) :
    (∃ x, t.responses = s.responses ++ [x]) ∧ t.commands = s.commands := by
  cases h with
  | startDecode | pullQueued | pullResolved | pullRun | pullFault | answer => exact ⟨⟨_, rfl⟩, rfl⟩
  | startEncode | startEncodeZero | pixel | finish => exact ⟨⟨.ok, by simp⟩, by simp⟩

/-- Settles O43. -/
theorem everyCommandGivesOneResponse : Obligations.EveryCommandGivesOneResponse := by
  intro s c rest hcommands
  obtain ⟨⟨t, hstep⟩, -⟩ := stepAlwaysAnswersNext s
  obtain ⟨⟨x, hresponses⟩, htaken⟩ := (commandEffect_of_step hcommands hstep).one_response
  exact ⟨t, x, hstep, hresponses, htaken⟩

/-! ## The start of a pass -/

/-- A decode pass starts ACTIVE when it has a budget (R37, R221). -/
theorem startPhase_eq_ite (n : BitVec 64) : startPhase n = if 0 < n.toNat then .active else .done := by
  have hbudget : 0 < n.toNat ↔ n ≠ 0 := by bv_omega
  rw [startPhase, if_congr hbudget rfl rfl, ite_not]

/-- Settles O33. -/
theorem startDecodeBeginsPass : Obligations.StartDecodeBeginsPass :=
  fun s n bytes => ⟨_, exec_startDecode s n bytes, State.readSlot_of_initCache rfl, rfl, rfl, rfl, rfl, rfl,
    rfl, rfl, startPhase_eq_ite n, rfl, rfl, rfl⟩

/-- Settles O34: with a budget of 0 the pass start is finished at once. -/
theorem startEncodeBeginsPass : Obligations.StartEncodeBeginsPass := by
  intro s n
  by_cases hn : n = 0
  · subst hn
    have hout : (s.startEncodePass 0).finish.out = [0, 0, 0, 0, 0, 0, 0, 1] :=
      State.out_finish_eq (Nat.zero_le _)
    have hslots (i : SlotIndex) : (s.startEncodePass 0).finish.readSlot i = Config.initSlot :=
      (State.readSlot_finish _ i).trans (State.readSlot_of_initCache rfl i)
    exact ⟨_, exec_startEncode_zero s, hslots, State.px_finish _, State.run_finish _, State.remaining_finish _,
      State.mode_finish _, State.cause_finish _, hout, rfl,
      congrArg (· ++ [Response.ok]) (State.responses_finish _), State.input_finish _, State.inPos_finish _,
      State.commands_finish _⟩
  · exact ⟨_, exec_startEncode_pos s hn, State.readSlot_of_initCache rfl, rfl, rfl, rfl, rfl, rfl,
      (if_neg hn).symm, (if_neg hn).symm, rfl, rfl, rfl, rfl⟩

/-! ## ENCODE_FINISH -/

/-- ENCODE_FINISH is REJECTED in every MODE and PHASE but those of an encode pass that runs or ended (R225). -/
theorem exec_encodeFinish_outside_pass {s : State}
    (h : ¬ (s.mode = .enc ∧ (s.phase = .active ∨ s.phase = .done))) :
    exec .encodeFinish s = .next (s.respond .rejected) := by
  apply exec_encodeFinish_rejected
  cases hmode : s.mode with
  | dec => exact .inl rfl
  | enc =>
    cases hphase : s.phase with
    | idle => exact .inr (.inl rfl)
    | failed => exact .inr (.inr rfl)
    | active => exact absurd ⟨hmode, .inl hphase⟩ h
    | done => exact absurd ⟨hmode, .inr hphase⟩ h

/-- Settles O31. -/
theorem encodeFinishEndsPass : Obligations.EncodeFinishEndsPass := by
  refine ⟨?_, fun s => exec_encodeFinish_done, fun s => exec_encodeFinish_outside_pass⟩
  rintro s ⟨hmode, hphase, -, hrun⟩
  refine ⟨_, exec_encodeFinish_active hmode hphase, State.out_finish_eq (hrun.trans (by omega)), ?_⟩
  simp [State.SameRest]

/-! ## The validity table -/

/-- Settles O35, column by column. -/
theorem commandValidityTable : Obligations.CommandValidityTable := by
  intro s
  refine ⟨fun hphase hmode => ?_, fun _ hmode => ?_, fun _ hmode => ?_, fun hphase hmode => ?_,
    fun hphase hmode => ?_, fun hphase hmode => ?_, fun code _ => exec_reservedCommand s code⟩
  · exact ⟨exec_decodeNext_rejected (.inr hphase), exec_encodePixel_rejected (.inl hmode),
      exec_encodeFinish_rejected (.inl hmode)⟩
  · exact ⟨exec_encodePixel_rejected (.inl hmode), exec_encodeFinish_rejected (.inl hmode)⟩
  · exact exec_decodeNext_rejected (.inl hmode)
  · exact ⟨exec_decodeNext_ended hmode (.inl hphase), exec_encodePixel_rejected (.inl hmode),
      exec_encodeFinish_rejected (.inl hmode)⟩
  · exact ⟨exec_decodeNext_rejected (.inl hmode), exec_encodePixel_done hmode hphase,
      exec_encodeFinish_done hmode hphase⟩
  · exact ⟨exec_decodeNext_ended hmode (.inr hphase), exec_encodePixel_rejected (.inl hmode),
      exec_encodeFinish_rejected (.inl hmode)⟩

/-! ## The status view -/

/-- A field above the low part of a word is a field of the high part. -/
theorem extractLsb'_append_above {v w start len : Nat} {hi : BitVec v} {lo : BitVec w} {field : BitVec len}
    (h : hi.extractLsb' start len = field) : (hi ++ lo).extractLsb' (w + start) len = field := by
  rw [BitVec.extractLsb'_append_eq_of_le (Nat.le_add_right w start), Nat.add_sub_cancel_left, h]

/-- STATUS holds each of its fields at the bits of R34: `statusWord` appends them, the highest first. -/
theorem State.statusWord_fields (s : State) :
    s.statusWord.extractLsb' 0 3 = s.phase.code ∧ s.statusWord.extractLsb' 3 1 = s.mode.code ∧
      s.statusWord.extractLsb' 4 2 = s.cause.code ∧ s.statusWord.extractLsb' 6 6 = s.run ∧
      s.statusWord.extractLsb' 12 20 = 0 := by
  refine ⟨?_, ?_, ?_, ?_, ?_⟩
  · exact BitVec.extractLsb'_append_eq_right
  · exact extractLsb'_append_above BitVec.extractLsb'_append_eq_right
  · exact extractLsb'_append_above (extractLsb'_append_above BitVec.extractLsb'_append_eq_right)
  · exact extractLsb'_append_above (extractLsb'_append_above (extractLsb'_append_above
      BitVec.extractLsb'_append_eq_right))
  · exact extractLsb'_append_above (extractLsb'_append_above (extractLsb'_append_above
      (extractLsb'_append_above BitVec.extractLsb'_eq_self)))

/-- Settles O36: register 0 by its fields, the other registers by their number. -/
theorem readRegReturnsStatusView : Obligations.ReadRegReturnsStatusView := by
  intro s k
  refine ⟨s.statusReg k, exec_readReg s k, ?_, ?_, ?_, fun hk => ?_⟩
  · rintro rfl
    obtain ⟨hphase, hmode, hcause, hrun, hzero⟩ := s.statusWord_fields
    refine ⟨?_, ?_, ?_, hrun, hzero⟩
    · exact (congrArg BitVec.toNat hphase).trans (by cases s.phase <;> rfl)
    · exact (congrArg BitVec.toNat hmode).trans (by cases s.mode <;> rfl)
    · exact (congrArg BitVec.toNat hcause).trans (by cases s.cause <;> rfl)
  · rintro rfl
    rfl
  · rintro rfl
    rfl
  · have h0 : k ≠ 0 := by bv_omega
    have h1 : k ≠ 1 := by bv_omega
    have h2 : k ≠ 2 := by bv_omega
    rw [State.statusReg, if_neg h0, if_neg h1, if_neg h2]

end Sys2Proof.Machine
end

section
/-! Proofs of family 60_exceptions.md (R250 to R260): where a pull faults and what the fault changes, the
failed pass, the encoder without a fault, and many blocks beside each other. -/

namespace Sys2Proof.Machine

/-! ## Where a pull faults -/

/-- The decoder rejects exactly the bytes with no first byte or too few bytes after it (R90, R251). -/
theorem decodeOpcode_eq_truncated_iff (bytes : List Byte) :
    decodeOpcode bytes = .error .truncated ↔
      ∀ b0 rest, bytes = b0 :: rest → rest.length < payloadLength b0 := by
  refine ⟨?_, fun h => ?_⟩
  · rintro htruncated b0 rest rfl
    by_contra hshort
    obtain ⟨i, hi⟩ := decodeOpcode_total b0 rest (Nat.not_lt.mp hshort)
    simp [hi] at htruncated
  · cases bytes with
    | nil => rfl
    | cons b0 rest => exact decodeOpcode_short b0 rest (h b0 rest rfl)

/-- A pull that outputs a pixel does not fail the pass (R130, R140). -/
theorem State.Outputs.phase_ne_failed {s t : State} (h : s.Outputs t) : t.phase ≠ .failed := by
  obtain ⟨⟨-, hphase⟩, -⟩ := h
  rw [hphase]
  split <;> decide

/-- A pull that has something to output is not starved (R131, R132). -/
theorem State.Reads.not_starved {s t : State} (h : s.Reads t) : ¬ s.Starved := by
  rintro ⟨hrun, htruncated⟩
  obtain ⟨hqueued, -⟩ | ⟨-, i, k, hd, -⟩ := h
  · exact hqueued hrun
  · simp [hd] at htruncated

/-- A pull of a running pass fails it exactly when it is starved: its only other end is a pixel (R251). -/
theorem exec_decodeNext_failed_iff {s t : State} (h : s.Decoding) (hexec : exec .decodeNext s = .next t) :
    t.phase = .failed ↔ s.Starved := by
  obtain ⟨u, hu, hout, hreads⟩ | ⟨hstarved, hfault⟩ := exec_decodeNext_cases h
  · cases hu.symm.trans hexec
    exact iff_of_false hout.phase_ne_failed hreads.not_starved
  · cases hfault.symm.trans hexec
    exact iff_of_true rfl hstarved

/-- Settles O20: being starved, with the decoder's rejection put in bytes. -/
theorem truncationPoints : Obligations.TruncationPoints :=
  fun _ _ hdecoding hexec =>
    (exec_decodeNext_failed_iff hdecoding hexec).trans (and_congr_right' (decodeOpcode_eq_truncated_iff _))

/-- Settles O19: the step is `faultEntry`, a record update of PHASE, CAUSE and IN_POS. -/
theorem truncationIsPrecise : Obligations.TruncationIsPrecise := by
  rintro s ⟨⟨hmode, hphase, -⟩, hrun⟩ hd
  have hexec : exec .decodeNext s = .next (s.faultEntry .truncatedInput) :=
    (exec_decodeNext_active hmode hphase).trans (decodeStep_truncated hrun hd)
  exact ⟨_, hexec, rfl, rfl, rfl, rfl, rfl, rfl, rfl, rfl, rfl, rfl, rfl, rfl⟩

/-! ## The failed pass -/

/-- Settles O21: the commands that only answer keep PHASE and CAUSE, and the two START commands begin a
pass as from any state. -/
theorem failedIsSticky : Obligations.FailedIsSticky := by
  refine ⟨⟨by decide, rfl⟩, fun s hphase hmode => ⟨exec_decodeNext_ended hmode (.inr hphase),
    fun p k code i hi => ?_, fun n bytes => ?_, fun n => ?_⟩⟩
  · have hanswer : ∃ x, exec i s = .next (s.respond x) := by
      simp only [List.mem_cons, List.not_mem_nil, or_false] at hi
      obtain rfl | rfl | rfl | rfl | rfl := hi
      · exact ⟨_, exec_decodeNext_ended hmode (.inr hphase)⟩
      · exact ⟨_, exec_encodePixel_rejected (.inl hmode) p⟩
      · exact ⟨_, exec_encodeFinish_rejected (.inl hmode)⟩
      · exact ⟨_, exec_readReg s k⟩
      · exact ⟨_, exec_reservedCommand s code⟩
    obtain ⟨x, hx⟩ := hanswer
    exact ⟨_, hx, hphase, rfl⟩
  · obtain ⟨t, hexec, -, -, -, -, -, hcause, -, -, hstart, -⟩ := startDecodeBeginsPass s n bytes
    exact ⟨t, hexec, by rw [hstart]; split <;> decide, hcause⟩
  · obtain ⟨t, hexec, -, -, -, -, -, hcause, -, hstart, -⟩ := startEncodeBeginsPass s n
    exact ⟨t, hexec, by rw [hstart]; split <;> decide, hcause⟩

/-! ## The encoder -/

/-- No fault was raised between the two states: CAUSE kept, FAILED not entered, no FAIL answered (R257). -/
def State.RaisesNoFault (s t : State) : Prop :=
  t.cause = s.cause ∧ (t.phase = .failed → s.phase = .failed) ∧
    ∀ c, t.responses ≠ s.responses ++ [.fail c]

/-- A response other than FAIL, after something that touched neither CAUSE nor the responses, raises no
fault. -/
theorem State.RaisesNoFault.respond {s u : State} (hcause : u.cause = s.cause)
    (hphase : u.phase = .failed → s.phase = .failed) (hresponses : u.responses = s.responses)
    {x : Response} (hx : ∀ c, x ≠ .fail c) : s.RaisesNoFault (u.respond x) :=
  ⟨hcause, hphase, fun c => by simp [hresponses, hx c]⟩

/-- A command that only answers raises no fault (R227). -/
theorem State.RaisesNoFault.answer (s : State) {x : Response} (hx : ∀ c, x ≠ .fail c) :
    s.RaisesNoFault (s.respond x) :=
  .respond rfl id rfl hx

/-- An encode step ends the pass or leaves PHASE alone (R183). -/
theorem State.failed_of_failed_encodeStep {s : State} {p : Pixel}
    (h : (s.encodeStep p).phase = .failed) : s.phase = .failed := by
  rw [State.phase_encodeStep] at h
  split at h
  · cases h
  · exact h

/-- ENCODE_PIXEL, phase by phase (R185, R224). -/
theorem exec_encodePixel_raisesNoFault {s : State} (hmode : s.mode = .enc) (p : Pixel) :
    ∃ t, exec (.encodePixel p) s = .next t ∧ s.RaisesNoFault t := by
  cases hphase : s.phase with
  | idle => exact ⟨_, exec_encodePixel_rejected (.inr (.inl hphase)) p, .answer s (by simp)⟩
  | active =>
    exact ⟨_, exec_encodePixel_active hmode hphase p,
      .respond (by simp) State.failed_of_failed_encodeStep (by simp) (by simp)⟩
  | done => exact ⟨_, exec_encodePixel_done hmode hphase p, .answer s (by simp)⟩
  | failed => exact ⟨_, exec_encodePixel_rejected (.inr (.inr hphase)) p, .answer s (by simp)⟩

/-- ENCODE_FINISH, phase by phase (R185, R225). -/
theorem exec_encodeFinish_raisesNoFault {s : State} (hmode : s.mode = .enc) :
    ∃ t, exec .encodeFinish s = .next t ∧ s.RaisesNoFault t := by
  cases hphase : s.phase with
  | idle => exact ⟨_, exec_encodeFinish_rejected (.inr (.inl hphase)), .answer s (by simp)⟩
  | active =>
    exact ⟨_, exec_encodeFinish_active hmode hphase, .respond (by simp) (by simp) (by simp) (by simp)⟩
  | done => exact ⟨_, exec_encodeFinish_done hmode hphase, .answer s (by simp)⟩
  | failed => exact ⟨_, exec_encodeFinish_rejected (.inr (.inr hphase)), .answer s (by simp)⟩

/-- Settles O32, command by command. -/
theorem encoderRaisesNoFault : Obligations.EncoderRaisesNoFault := by
  intro s p i hmode hi
  simp only [List.mem_cons, List.not_mem_nil, or_false] at hi
  obtain rfl | rfl := hi
  · exact exec_encodePixel_raisesNoFault hmode p
  · exact exec_encodeFinish_raisesNoFault hmode

/-! ## Many blocks -/

/-- A step among many blocks: there is no block `k` and nothing happens, or block `k` takes its own step and
its place in the list is the only one written (R260). -/
theorem stepInstance_cases {k : Nat} {blocks after : List State} (h : stepInstance k blocks = .next after) :
    (blocks[k]? = none ∧ after = blocks) ∨
      ∃ s t, blocks[k]? = some s ∧ step s = .next t ∧ after = blocks.set k t := by
  cases hk : blocks[k]? with
  | none =>
    simp only [stepInstance, hk] at h
    cases h
    exact .inl ⟨rfl, rfl⟩
  | some s =>
    cases hstep : step s <;> simp only [stepInstance, hk, hstep] at h <;> cases h
    exact .inr ⟨s, _, rfl, hstep, rfl⟩

/-- Settles O53: a read of the list after a write at `k`, at another place and at `k`. -/
theorem instancesAreIndependent : Obligations.InstancesAreIndependent := by
  intro k j blocks after h
  obtain ⟨hk, rfl⟩ | ⟨s, t, hk, hstep, rfl⟩ := stepInstance_cases h
  · exact ⟨rfl, fun _ => rfl, fun s t hs => by simp [hk] at hs⟩
  · refine ⟨List.length_set, fun hj => List.getElem?_set_ne hj.symm, fun s' t' hs hstep' => ?_⟩
    cases hk.symm.trans hs
    cases hstep.symm.trans hstep'
    obtain ⟨hlt, -⟩ := List.getElem?_eq_some_iff.mp hk
    exact List.getElem?_set_self hlt

end Sys2Proof.Machine
end

section
/-! Proofs of family 70_reset_and_hazards.md (R280 to R288): what a pull can see of the stream, and what a
later pass can see of an earlier one. -/

namespace Sys2Proof

/-! ## Bytes a pull does not read -/

/-- The decoder's answer does not depend on bytes after its opcode (R90). -/
theorem decodeOpcode_append_congr {bytes b : List Byte} {i : Instr} {k : Nat}
    (h : decodeOpcode (bytes ++ b) = .ok (i, k)) (hlength : i.byteLength ≤ bytes.length) (c : List Byte) :
    decodeOpcode (bytes ++ c) = .ok (i, k) := by
  obtain ⟨hwf, rest, hbytes⟩ := eq_encodeStream_append_of_decodeOpcode h
  obtain ⟨tail, rfl⟩ : encodeStream i <+: bytes :=
    List.prefix_of_prefix_length_le ⟨rest, hbytes.symm⟩ (List.prefix_append bytes b)
      ((length_encodeStream i).trans_le hlength)
  rw [List.append_assoc, decodeOpcode_encodeStream hwf (isOpcode_of_decodeOpcode h),
    byteLength_of_decodeOpcode h]

namespace Machine

/-! ## What a pull looks at -/

section
variable {s s' : State} (hmode : s.mode = .dec) (hmode' : s'.mode = .dec) (hcache : s'.cache = s.cache)
  (hpx : s'.px = s.px)
include hmode hmode' hcache hpx

/-- An opcode in a decode pass looks at CACHE and PX alone (R133 to R138). -/
theorem exec_opcode_congr {i : Instr} (hop : i.isOpcode = true) :
    (∃ p, exec i s = .next (s.resolve p).emitPixel ∧ exec i s' = .next (s'.resolve p).emitPixel) ∨
    (∃ r, exec i s = .next (s.withRun r).emitPixel ∧ exec i s' = .next (s'.withRun r).emitPixel) := by
  cases i <;> simp only [Instr.isOpcode, Bool.false_eq_true] at hop
  case index i =>
    exact .inl ⟨_, exec_index_dec hmode i, State.readSlot_congr hcache i ▸ exec_index_dec hmode' i⟩
  case diff dr dg db => exact .inl ⟨_, exec_diff_dec hmode dr dg db, hpx ▸ exec_diff_dec hmode' dr dg db⟩
  case luma dg x y => exact .inl ⟨_, exec_luma_dec hmode dg x y, hpx ▸ exec_luma_dec hmode' dg x y⟩
  case run len => exact .inr ⟨_, exec_run_dec hmode len, exec_run_dec hmode' len⟩
  case rgb r g b => exact .inl ⟨_, exec_rgb_dec hmode r g b, hpx ▸ exec_rgb_dec hmode' r g b⟩
  case rgba r g b a => exact .inl ⟨_, exec_rgba_dec hmode r g b a, exec_rgba_dec hmode' r g b a⟩

/-- The decoder's step looks at CACHE, PX and RUN, and at the opcode at IN_POS when no repeat is queued
(R130). -/
theorem decodeStep_congr (hrun : s'.run = s.run)
    (hopcode : s.run = 0 →
      decodeOpcode (s'.inBytes.drop s'.inPos) = decodeOpcode (s.inBytes.drop s.inPos)) :
    (∃ k p, decodeStep s = .next ((s.advance k).resolve p).emitPixel ∧
      decodeStep s' = .next ((s'.advance k).resolve p).emitPixel) ∨
    (∃ k r, decodeStep s = .next ((s.advance k).withRun r).emitPixel ∧
      decodeStep s' = .next ((s'.advance k).withRun r).emitPixel) ∨
    (decodeStep s = .next (s.faultEntry .truncatedInput) ∧
      decodeStep s' = .next (s'.faultEntry .truncatedInput)) := by
  by_cases hqueued : s.run = 0
  · have hqueued' : s'.run = 0 := hrun.trans hqueued
    obtain ⟨i, k, hd⟩ | hd := decodeOpcode_dichotomy (s.inBytes.drop s.inPos)
    · rw [decodeStep_opcode hqueued hd, decodeStep_opcode hqueued' ((hopcode hqueued).trans hd)]
      obtain ⟨p, h⟩ | ⟨r, h⟩ := exec_opcode_congr (s := s.advance k) (s' := s'.advance k) hmode hmode'
        hcache hpx (isOpcode_of_decodeOpcode hd)
      · exact .inl ⟨k, p, h⟩
      · exact .inr (.inl ⟨k, r, h⟩)
    · exact .inr (.inr ⟨decodeStep_truncated hqueued hd,
        decodeStep_truncated hqueued' ((hopcode hqueued).trans hd)⟩)
  · exact .inr (.inl ⟨0, s.run - 1, decodeStep_inRun hqueued,
      hrun ▸ decodeStep_inRun (hrun.symm ▸ hqueued)⟩)

end

/-- Where a pull that did not fault ends within the first part of IN, the opcode it decoded lies there, and
other bytes after that part decode the same (R132). -/
theorem decodeOpcode_congr_of_pull {s t : State} {a b : List Byte} (hin : s.inBytes = a ++ b)
    (hdecoding : s.Decoding) (hpos : s.inPos ≤ a.length) (hexec : exec .decodeNext s = .next t)
    (hphase : t.phase ≠ .failed) (hread : t.inPos ≤ a.length) (hrun : s.run = 0) (c : List Byte) :
    decodeOpcode ((a ++ c).drop s.inPos) = decodeOpcode (s.inBytes.drop s.inPos) := by
  obtain ⟨u, hu, -, hreads⟩ | ⟨-, hfault⟩ := exec_decodeNext_cases hdecoding
  · cases hu.symm.trans hexec
    obtain ⟨hqueued, -⟩ | ⟨-, i, k, hd, hend, -⟩ := hreads
    · exact absurd hrun hqueued
    · have hlength : i.byteLength ≤ (a.drop s.inPos).length := by
        rw [List.length_drop]
        omega
      rw [hd]
      rw [hin, List.drop_append_of_le_length hpos] at hd
      rw [List.drop_append_of_le_length hpos, decodeOpcode_append_congr hd hlength c]
  · cases hfault.symm.trans hexec
    exact absurd rfl hphase

/-- Settles O22: over either stream the decoder's step sees the same opcode. -/
theorem decoderReadsNothingAhead : Obligations.DecoderReadsNothingAhead := by
  intro s t a b c hdecoding hpos hexec hphase hread
  have hopcode := decodeOpcode_congr_of_pull (s := { s with input := some (a ++ b) }) rfl hdecoding hpos
    hexec hphase hread
  obtain ⟨hmode, hactive, -⟩ := hdecoding
  have hpull (bytes : List Byte) : exec .decodeNext { s with input := some bytes } =
      decodeStep { s with input := some bytes } := exec_decodeNext_active hmode hactive
  rw [hpull] at hexec ⊢
  obtain ⟨k, p, h, h'⟩ | ⟨k, r, h, h'⟩ | ⟨h, -⟩ :=
    decodeStep_congr (s := { s with input := some (a ++ b) }) (s' := { s with input := some (a ++ c) })
      hmode hmode rfl rfl rfl fun hrun => hopcode hrun c
  · cases h.symm.trans hexec
    exact h'
  · cases h.symm.trans hexec
    exact h'
  · cases h.symm.trans hexec
    exact absurd rfl hphase

/-! ## Two blocks in the same pass -/

/-- `s` with other elements where only a decode pass looks, IN and IN_POS, and other responses given. -/
def State.withDecoderSide (s : State) (input : Option (List Byte)) (inPos : Nat)
    (responses : List Response) : State :=
  { s with input := input, inPos := inPos, responses := responses }

/-- `s'` is `s` but for what is left of earlier passes: OUT in a decode pass, IN and IN_POS in an encode
pass, and the responses given (R281). -/
inductive State.SamePass (s : State) : State → Prop where
  | dec (hmode : s.mode = .dec) (out : List Byte) (responses : List Response) :
      SamePass s { s with out := out, responses := responses }
  | enc (hmode : s.mode = .enc) (input : Option (List Byte)) (inPos : Nat) (responses : List Response) :
      SamePass s (s.withDecoderSide input inPos responses)

namespace State.SamePass
variable {s s' : State}

theorem respond (h : s.SamePass s') (x : Response) : (s.respond x).SamePass (s'.respond x) := by
  cases h with
  | dec hmode out rs => exact .dec (s := s.respond x) hmode out (rs ++ [x])
  | enc hmode input pos rs => exact .enc (s := s.respond x) hmode input pos (rs ++ [x])

theorem withCommands (h : s.SamePass s') (cs : List Request) :
    (s.withCommands cs).SamePass (s'.withCommands cs) := by
  cases h with
  | dec hmode out rs => exact .dec (s := s.withCommands cs) hmode out rs
  | enc hmode input pos rs => exact .enc (s := s.withCommands cs) hmode input pos rs

theorem commands_eq (h : s.SamePass s') : s'.commands = s.commands := by
  cases h <;> rfl

theorem mode_eq (h : s.SamePass s') : s'.mode = s.mode := by
  cases h <;> rfl

theorem phase_eq (h : s.SamePass s') : s'.phase = s.phase := by
  cases h <;> rfl

theorem statusReg_eq (h : s.SamePass s') (k : Byte) : s'.statusReg k = s.statusReg k := by
  cases h <;> rfl

/-- A decode pass starts the same from any two states (R37, R221). -/
theorem startDecodePass (hport : s'.commands = s.commands) (n : BitVec 64) (stream : List Byte) :
    (s.startDecodePass n stream).SamePass (s'.startDecodePass n stream) := by
  have hstart : s'.startDecodePass n stream =
      { s.startDecodePass n stream with out := s'.out, responses := s'.responses } := by
    simp only [State.startDecodePass, State.startPass, hport]
  rw [hstart]
  exact .dec rfl _ _

/-- An encode pass starts the same from any two states (R37, R222). -/
theorem startEncodePass (hport : s'.commands = s.commands) (n : BitVec 64) :
    (s.startEncodePass n).SamePass (s'.startEncodePass n) := by
  have hstart : s'.startEncodePass n =
      (s.startEncodePass n).withDecoderSide s'.input s'.inPos s'.responses := by
    simp only [State.startEncodePass, State.startPass, State.withDecoderSide, hport]
  rw [hstart]
  exact .enc rfl _ _ _

end State.SamePass

/-! ### The encoder looks at nothing of the decoder's -/

section
variable (s : State) (input : Option (List Byte)) (inPos : Nat) (responses : List Response)

theorem State.flushRun_withDecoderSide : (s.withDecoderSide input inPos responses).flushRun =
    s.flushRun.withDecoderSide input inPos responses :=
  (apply_ite (State.withDecoderSide · input inPos responses) (s.run ≠ 0) s.emitRun s).symm

theorem State.finish_withDecoderSide : (s.withDecoderSide input inPos responses).finish =
    s.finish.withDecoderSide input inPos responses := by
  rw [State.finish, State.flushRun_withDecoderSide]
  rfl

theorem State.encodeNew_withDecoderSide (px : Pixel) :
    (s.withDecoderSide input inPos responses).encodeNew px =
      (s.encodeNew px).withDecoderSide input inPos responses := by
  simp only [State.encodeNew, State.flushRun_withDecoderSide]
  rfl

theorem State.continueRun_withDecoderSide :
    (s.withDecoderSide input inPos responses).continueRun =
      s.continueRun.withDecoderSide input inPos responses :=
  (apply_ite (State.withDecoderSide · input inPos responses) ((s.run + 1).toNat = Config.runMax)
    (s.withRun (s.run + 1)).emitRun (s.withRun (s.run + 1))).symm

theorem State.encodeBody_withDecoderSide (px : Pixel) :
    (s.withDecoderSide input inPos responses).encodeBody px =
      (s.encodeBody px).withDecoderSide input inPos responses := by
  rw [State.encodeBody, State.continueRun_withDecoderSide, State.encodeNew_withDecoderSide]
  exact (apply_ite (State.withDecoderSide · input inPos responses) (px = s.px) _ _).symm

theorem State.encodeStep_withDecoderSide (px : Pixel) :
    (s.withDecoderSide input inPos responses).encodeStep px =
      (s.encodeStep px).withDecoderSide input inPos responses := by
  have haccept : ((s.withDecoderSide input inPos responses).encodeBody px).acceptPixel px =
      ((s.encodeBody px).acceptPixel px).withDecoderSide input inPos responses := by
    rw [State.encodeBody_withDecoderSide]
    rfl
  simp only [State.encodeStep, haccept, State.finish_withDecoderSide]
  exact (apply_ite (State.withDecoderSide · input inPos responses)
    (((s.encodeBody px).acceptPixel px).remaining = 0) _ _).symm

end

namespace State.SamePass
variable {s s' : State}

/-- Finishing an encode pass (R184). -/
theorem finish (h : s.SamePass s') (hmode : s.mode = .enc) : s.finish.SamePass s'.finish := by
  cases h with
  | dec hdec => exact nomatch hdec.symm.trans hmode
  | enc _ input pos rs =>
    rw [State.finish_withDecoderSide]
    exact .enc (s.mode_finish.trans hmode) input pos rs

/-- An encode step (R170). -/
theorem encodeStep (h : s.SamePass s') (hmode : s.mode = .enc) (px : Pixel) :
    (s.encodeStep px).SamePass (s'.encodeStep px) := by
  cases h with
  | dec hdec => exact nomatch hdec.symm.trans hmode
  | enc _ input pos rs =>
    rw [State.encodeStep_withDecoderSide]
    exact .enc ((s.mode_encodeStep px).trans hmode) input pos rs

end State.SamePass

/-! ### The same commands in the same pass -/

/-- From `s` and `s'` these two outcomes are next states in the same pass, with the same responses given on
the way. -/
def State.AlikeFrom (s s' : State) (o o' : Host.Outcome State Fault Refusal) : Prop :=
  ∃ t t' rs, o = .next t ∧ o' = .next t' ∧ t.SamePass t' ∧
    t.responses = s.responses ++ rs ∧ t'.responses = s'.responses ++ rs

/-- Two commands that come to states in the same pass and then respond the same. -/
theorem State.AlikeFrom.respond {s s' u u' : State} (h : u.SamePass u') (x : Response)
    (hresponses : u.responses = s.responses) (hresponses' : u'.responses = s'.responses) :
    s.AlikeFrom s' (.next (u.respond x)) (.next (u'.respond x)) :=
  ⟨_, _, [x], rfl, rfl, h.respond x, congrArg (· ++ [x]) hresponses, congrArg (· ++ [x]) hresponses'⟩

/-- START_DECODE from any two states (R221). -/
theorem exec_startDecode_alike {s s' : State} (hport : s'.commands = s.commands) (n : BitVec 64)
    (stream : List Byte) :
    s.AlikeFrom s' (exec (.startDecode n stream) s) (exec (.startDecode n stream) s') :=
  .respond (.startDecodePass hport n stream) .ok rfl rfl

/-- START_ENCODE from any two states (R222). -/
theorem exec_startEncode_alike {s s' : State} (hport : s'.commands = s.commands) (n : BitVec 64) :
    s.AlikeFrom s' (exec (.startEncode n) s) (exec (.startEncode n) s') := by
  have hstart : (s.startEncodePass n).SamePass (s'.startEncodePass n) := .startEncodePass hport n
  by_cases hn : n = 0
  · subst hn
    rw [exec_startEncode_zero, exec_startEncode_zero]
    exact .respond (hstart.finish rfl) .ok (State.responses_finish _) (State.responses_finish _)
  · rw [exec_startEncode_pos s hn, exec_startEncode_pos s' hn]
    exact .respond hstart .ok rfl rfl

section
variable {s s' : State} (h : s.SamePass s')
include h

/-- A command that answers in this MODE and PHASE and does nothing else (R227). -/
theorem exec_alike_of_answer {i : Instr} (x : Response)
    (hanswer : ∀ u : State, u.mode = s.mode → u.phase = s.phase → exec i u = .next (u.respond x)) :
    s.AlikeFrom s' (exec i s) (exec i s') := by
  rw [hanswer s rfl rfl, hanswer s' h.mode_eq h.phase_eq]
  exact .respond h x rfl rfl

/-- DECODE_NEXT (R223): a running decode pass steps the same, its stream being the same. -/
theorem exec_decodeNext_alike : s.AlikeFrom s' (exec .decodeNext s) (exec .decodeNext s') := by
  cases hmode : s.mode with
  | enc =>
    exact exec_alike_of_answer h .rejected fun u hm _ => exec_decodeNext_rejected (.inl (hm.trans hmode))
  | dec =>
  cases hphase : s.phase with
  | idle =>
    exact exec_alike_of_answer h .rejected fun u _ hp => exec_decodeNext_rejected (.inr (hp.trans hphase))
  | done =>
    exact exec_alike_of_answer h .endOfPass fun u hm hp =>
      exec_decodeNext_ended (hm.trans hmode) (.inl (hp.trans hphase))
  | failed =>
    exact exec_alike_of_answer h .endOfPass fun u hm hp =>
      exec_decodeNext_ended (hm.trans hmode) (.inr (hp.trans hphase))
  | active =>
    cases h with
    | enc henc => exact nomatch hmode.symm.trans henc
    | dec _ out rs =>
    rw [exec_decodeNext_active hmode hphase,
      exec_decodeNext_active (s := { s with out := out, responses := rs }) hmode hphase]
    obtain ⟨k, p, hstep, hstep'⟩ | ⟨k, r, hstep, hstep'⟩ | ⟨hstep, hstep'⟩ :=
      decodeStep_congr (s := s) (s' := { s with out := out, responses := rs }) hmode hmode rfl rfl rfl
        fun _ => rfl
    · exact ⟨_, _, [.pixel p], hstep, hstep',
        .dec (s := ((s.advance k).resolve p).emitPixel) hmode _ _, rfl, rfl⟩
    · exact ⟨_, _, [.pixel s.px], hstep, hstep',
        .dec (s := ((s.advance k).withRun r).emitPixel) hmode _ _, rfl, rfl⟩
    · exact ⟨_, _, [.fail .truncatedInput], hstep, hstep',
        .dec (s := s.faultEntry .truncatedInput) hmode _ _, rfl, rfl⟩

/-- ENCODE_PIXEL (R224). -/
theorem exec_encodePixel_alike (p : Pixel) :
    s.AlikeFrom s' (exec (.encodePixel p) s) (exec (.encodePixel p) s') := by
  cases hmode : s.mode with
  | dec =>
    exact exec_alike_of_answer h .rejected fun u hm _ => exec_encodePixel_rejected (.inl (hm.trans hmode)) p
  | enc =>
  cases hphase : s.phase with
  | idle =>
    exact exec_alike_of_answer h .rejected fun u _ hp =>
      exec_encodePixel_rejected (.inr (.inl (hp.trans hphase))) p
  | failed =>
    exact exec_alike_of_answer h .rejected fun u _ hp =>
      exec_encodePixel_rejected (.inr (.inr (hp.trans hphase))) p
  | done =>
    exact exec_alike_of_answer h .ignored fun u hm hp =>
      exec_encodePixel_done (hm.trans hmode) (hp.trans hphase) p
  | active =>
    rw [exec_encodePixel_active hmode hphase,
      exec_encodePixel_active (h.mode_eq.trans hmode) (h.phase_eq.trans hphase)]
    exact .respond (h.encodeStep hmode p) .ok (State.responses_encodeStep s p)
      (State.responses_encodeStep s' p)

/-- ENCODE_FINISH (R225). -/
theorem exec_encodeFinish_alike : s.AlikeFrom s' (exec .encodeFinish s) (exec .encodeFinish s') := by
  by_cases hpass : s.mode = .enc ∧ (s.phase = .active ∨ s.phase = .done)
  · obtain ⟨hmode, hphase | hphase⟩ := hpass
    · rw [exec_encodeFinish_active hmode hphase,
        exec_encodeFinish_active (h.mode_eq.trans hmode) (h.phase_eq.trans hphase)]
      exact .respond (h.finish hmode) .ok (State.responses_finish s) (State.responses_finish s')
    · exact exec_alike_of_answer h .ok fun u hm hp =>
        exec_encodeFinish_done (hm.trans hmode) (hp.trans hphase)
  · exact exec_alike_of_answer h .rejected fun u hm hp =>
      exec_encodeFinish_outside_pass (by rwa [hm, hp])

/-- Every command (R220). -/
theorem exec_command_alike {i : Instr} (hi : i.isCommand = true) :
    s.AlikeFrom s' (exec i s) (exec i s') := by
  cases i <;> simp only [Instr.isCommand, Bool.false_eq_true] at hi
  case startDecode n stream => exact exec_startDecode_alike h.commands_eq n stream
  case startEncode n => exact exec_startEncode_alike h.commands_eq n
  case decodeNext => exact exec_decodeNext_alike h
  case encodePixel p => exact exec_encodePixel_alike h p
  case encodeFinish => exact exec_encodeFinish_alike h
  case readReg k =>
    rw [exec_readReg, exec_readReg, h.statusReg_eq]
    exact .respond h _ rfl rfl
  case reservedCommand code =>
    exact exec_alike_of_answer h .rejected fun u _ _ => exec_reservedCommand u code

/-- A step takes the same command off the port, or both blocks rest (R13). -/
theorem step_alike : s.AlikeFrom s' (step s) (step s') := by
  cases hcommands : s.commands with
  | nil =>
    have hcommands' : s'.commands = [] := h.commands_eq.trans hcommands
    exact ⟨s, s', [], step_of_no_command hcommands, step_of_no_command hcommands', h, by simp, by simp⟩
  | cons c rest =>
    rw [step_of_command hcommands, step_of_command (h.commands_eq.trans hcommands)]
    exact exec_command_alike (h.withCommands rest) (isCommand_decodeCommand c)

end

/-- A step and the run after it. -/
theorem State.AlikeFrom.stepN_succ {s s' : State} {k : Nat} (hstep : s.AlikeFrom s' (step s) (step s'))
    (hrun : ∀ {t t' : State}, t.SamePass t' → t.AlikeFrom t' (stepN k t) (stepN k t')) :
    s.AlikeFrom s' (stepN (k + 1) s) (stepN (k + 1) s') := by
  obtain ⟨t, t', rs, ht, ht', hsame, hresponses, hresponses'⟩ := hstep
  obtain ⟨u, u', rs', hu, hu', hsameEnd, hresponsesEnd, hresponsesEnd'⟩ := hrun hsame
  rw [Machine.stepN_succ ht, Machine.stepN_succ ht']
  exact ⟨u, u', rs ++ rs', hu, hu', hsameEnd, by rw [hresponsesEnd, hresponses, List.append_assoc],
    by rw [hresponsesEnd', hresponses', List.append_assoc]⟩

/-- Two blocks in the same pass stay so, step by step. -/
theorem stepN_alike {s s' : State} (h : s.SamePass s') (k : Nat) :
    s.AlikeFrom s' (stepN k s) (stepN k s') := by
  induction k generalizing s s' with
  | zero => exact ⟨s, s', [], rfl, rfl, h, by simp, by simp⟩
  | succ k ih => exact (step_alike h).stepN_succ ih

/-- The step of a START command brings any two blocks into the same pass (R37). -/
theorem step_start_alike (s s' : State) {c : Request} (hc : c.code = 0x01 ∨ c.code = 0x02)
    (cs : List Request) :
    s.AlikeFrom s' (step (s.withCommands (c :: cs))) (step (s'.withCommands (c :: cs))) := by
  rw [step_withCommands, step_withCommands]
  obtain hcode | hcode := hc
  · have hdecode : decodeCommand c = .startDecode c.count c.stream := by simp [decodeCommand, hcode]
    rw [hdecode]
    exact exec_startDecode_alike (s := s.withCommands cs) (s' := s'.withCommands cs) rfl c.count c.stream
  · have hdecode : decodeCommand c = .startEncode c.count := by simp [decodeCommand, hcode]
    rw [hdecode]
    exact exec_startEncode_alike (s := s.withCommands cs) (s' := s'.withCommands cs) rfl c.count

/-- Settles O50: the START command brings the two blocks into the same pass, and every later step keeps
them there. -/
theorem passStartErasesHistory : Obligations.PassStartErasesHistory := by
  intro s1 s2 c cs hc
  obtain ⟨t1, t2, rs, h1, h2, hsame, hresponses1, hresponses2⟩ :=
    State.AlikeFrom.stepN_succ (step_start_alike s1 s2 hc cs) fun h => stepN_alike h cs.length
  refine ⟨t1, t2, rs, h1, h2, hresponses1, hresponses2, ?_⟩
  cases hsame with
  | dec hdec =>
    exact ⟨rfl, rfl, rfl, rfl, rfl, rfl, rfl, fun _ => ⟨rfl, rfl⟩, fun henc => nomatch hdec.symm.trans henc⟩
  | enc henc =>
    exact ⟨rfl, rfl, rfl, rfl, rfl, rfl, rfl, fun hdec => (nomatch hdec.symm.trans henc), fun _ => rfl⟩

end Machine

end Sys2Proof
end
